-- ==== Sys2Proof/Word.lean ====
section
/-!
DEFINITION. The word types of the core: the 10-bit word of a register or a memory cell, the 11-bit word of the
program counter, and the decimal digit an instruction's field is.
-/

namespace Sys2Proof

/-- A word: the content of one register or one memory cell, 10 bits, unsigned (R7, R12, R13, R31). -/
abbrev Word := BitVec 10

/-- A program-counter value: 11 bits (R6, R18). -/
abbrev Pc := BitVec 11

/-- A decimal digit, the value of an operand field (R48). -/
abbrev Digit := Fin 10

/-- A register index, which is always a decimal digit (R14). -/
abbrev RegIndex := Digit

end Sys2Proof
end

