-- ==== Sys2Proof/Config.lean ====
section
/-!
DEFINITION. What is fixed for the machine: the parameters of rule R6, each at the one value the spec gives it, and
the two switches that spec/93_implementation_defined.md names for the behaviours the source leaves open (items 1
and 2), each at the spec's own decision. The spec leaves no value open, so there is no free value here.
-/

namespace Sys2Proof

/-- NREG: the number of registers (R6, R13). -/
abbrev Config.numRegs : Nat := 10

/-- WORD_MAX: the largest word value (R6). -/
abbrev Config.wordMax : Nat := 1023

/-- MODULUS: the modulus of add and multiply (R6, R83). -/
abbrev Config.modulus : Nat := 1000

/-- MEM_CAP: the memory capacity in words (R6, R31; decision D2). -/
abbrev Config.memCap : Nat := 1024

/-- ENTRY: the address of the first fetch (R6, R41, R107). -/
def Config.entry : Pc := 0#11

/-- UNDISPATCHED: whether an undispatched word faults. The spec decides that it does not (R6, R55, R88; decision
D5); `true` is the source's permitted strict mode (93_implementation_defined.md item 1). That
there is a switch is a DESIGN CHOICE; unsafe against a strict implementation alone: log entry 7. -/
def Config.undispatchedFaults : Bool := false

/-- STORE_AT_END: whether a store to address memLen extends the memory. The spec decides that it does (R6, R34, R86;
decision D4); `false` is the source's permitted strict mode (93_implementation_defined.md item 2). That
there is a switch is a DESIGN CHOICE; unsafe against a strict implementation alone: log entry 7. -/
def Config.storeAtEndGrows : Bool := true

end Sys2Proof
end

