-- ==== Sys2Proof/Syntax.lean ====
section
/-!
DEFINITION. The instructions of the core, one constructor for each row of spec/opcode_table.json (R53), in the
table's order. Operands are the decimal digits of the word: d and s are register indices, n is a literal (R9, R50).
-/

namespace Sys2Proof

/-- One instruction: one word (R47). -/
inductive Instr where
  /-- HALT, word 100 (R76). -/
  | halt
  /-- HALT-ILLEGAL, words 101 to 199: opcode 1 with a nonzero operand (R54, R76). -/
  | haltIllegal (p q : Digit)
  /-- SETI rd, n (R77). -/
  | seti (d : RegIndex) (n : Digit)
  /-- ADDI rd, n (R78). -/
  | addi (d : RegIndex) (n : Digit)
  /-- MULI rd, n (R79). -/
  | muli (d : RegIndex) (n : Digit)
  /-- MOV rd, rs (R80). -/
  | mov (d src : RegIndex)
  /-- ADD rd, rs (R81). -/
  | add (d src : RegIndex)
  /-- MUL rd, rs (R82). -/
  | mul (d src : RegIndex)
  /-- LD rd, [rs] (R85). -/
  | ld (d src : RegIndex)
  /-- ST rd, [rs]: d names the data, src the address (R86). -/
  | st (d src : RegIndex)
  /-- JNZ rd, rs: d names the target, src the condition (R87). -/
  | jnz (d src : RegIndex)
  /-- An undispatched word, opcode value 10, words 1000 to 1023; the digits are ignored (R88). -/
  | undispatched (p q : Digit)
  deriving DecidableEq, Repr

end Sys2Proof
end

