-- ==== Sys2Proof/WellFormed.lean ====
section
/-!
DEFINITION. Which terms of `Instr` are instructions of the core. Every operand is a decimal digit by its type (R14,
R52); two rows of the opcode table take fewer words than their digits could write (R53).
-/

namespace Sys2Proof

/-- The check that a term stands for a word of its own row: an illegal halt has a nonzero operand (R54), and an
undispatched word is at most 1023 (R49, R55). Every other term is an instruction. -/
def Instr.wellFormed : Instr → Bool
  | .haltIllegal p q => p != 0 || q != 0
  | .undispatched p q => 10 * p.val + q.val ≤ 23
  | .halt => true
  | .seti _ _ => true
  | .addi _ _ => true
  | .muli _ _ => true
  | .mov _ _ => true
  | .add _ _ => true
  | .mul _ _ => true
  | .ld _ _ => true
  | .st _ _ => true
  | .jnz _ _ => true

/-- The same check as a proposition. -/
abbrev Instr.WellFormed (i : Instr) : Prop := i.wellFormed = true

end Sys2Proof
end

