-- ==== Sys2Proof/Decode.lean ====
section
/-!
DEFINITION. Decoding and encoding. An instruction's fields are the decimal digits of its word's value, not bit fields
(R47); decoding splits the value by division (R48) and is total on words (R49); encoding is its inverse (R60). A
number that is no word is rejected by name.
-/

namespace Sys2Proof

/-- `dig(v, k)`: decimal digit k of v, digit 0 the units digit (R8). -/
def dig (v k : Nat) : Digit := Fin.ofNat 10 (v / 10 ^ k)

/-- The three fields of a value: op (the hundreds and above), p1 (tens), p2 (units) (R48). -/
def splitFields (v : Nat) : Nat × Digit × Digit := (v / 100, dig v 1, dig v 0)

/-- The value three fields make (R48, R60). -/
def joinFields (op : Nat) (p1 p2 : Digit) : Nat := 100 * op + 10 * p1.val + p2.val

/-- The row of the opcode map that three fields select: from op alone, except that opcode 1 also compares p1 and p2
with 0 (R53, R67). Any opcode value past 9 is undispatched (R12, R55). -/
def instrOfFields (op : Nat) (p1 p2 : Digit) : Instr :=
  match op with
  | 0 => .jnz p1 p2
  | 1 => if p1 = 0 ∧ p2 = 0 then .halt else .haltIllegal p1 p2
  | 2 => .seti p1 p2
  | 3 => .addi p1 p2
  | 4 => .muli p1 p2
  | 5 => .mov p1 p2
  | 6 => .add p1 p2
  | 7 => .mul p1 p2
  | 8 => .ld p1 p2
  | 9 => .st p1 p2
  | _ => .undispatched p1 p2

/-- The instruction a fetched word is. Total: every word decodes (R49). -/
def decode (w : Word) : Instr :=
  instrOfFields (splitFields w.toNat).1 (splitFields w.toNat).2.1 (splitFields w.toNat).2.2

/-- Why a number is not decoded. -/
inductive DecodeReject where
  /-- The number is above 1023, so no cell holds it (R5, R47). -/
  | notAWord (v : Nat)
  deriving DecidableEq, Repr

/-- The instruction a number is, where it is a word. -/
def decodeValue (v : Nat) : Except DecodeReject Instr :=
  if v ≤ Config.wordMax then .ok (decode (BitVec.ofNat 10 v)) else .error (.notAWord v)

/-- The fields an instruction is written with (the opcode map's op, p1 and p2: R50, R53). -/
def fieldsOf : Instr → Nat × Digit × Digit
  | .halt => (1, 0, 0)
  | .haltIllegal p q => (1, p, q)
  | .seti d n => (2, d, n)
  | .addi d n => (3, d, n)
  | .muli d n => (4, d, n)
  | .mov d src => (5, d, src)
  | .add d src => (6, d, src)
  | .mul d src => (7, d, src)
  | .ld d src => (8, d, src)
  | .st d src => (9, d, src)
  | .jnz d src => (0, d, src)
  | .undispatched p q => (10, p, q)

/-- The value of an instruction's word (R60). -/
def encodeValue (i : Instr) : Nat := joinFields (fieldsOf i).1 (fieldsOf i).2.1 (fieldsOf i).2.2

/-- An instruction's word. -/
def encode (i : Instr) : Word := BitVec.ofNat 10 (encodeValue i)

/-- The instruction the decoder reads from an opcode-table word `w` of `nbits` bits. Every instruction is one cell
(R47), so the word's bits above `nbits` are 0 and no second word follows; a value above 1023 is no cell's. -/
def decodeTableWord (nbits w : Nat) : Option Instr :=
  match decodeValue (w % 2 ^ nbits) with
  | .ok i => some i
  | .error _ => none

end Sys2Proof
end

