-- ==== Sys2Proof/Machine/State.lean ====
section
/-!
DEFINITION. The whole state of the core (10_state.md), as plain data, its reset value (R29), and the reasons a step
or a host's call can stop.
-/

namespace Sys2Proof.Machine

/-- The five states of a run (R22). -/
inductive Phase where
  /-- After reset; the host may append and may call run. -/
  | ready
  /-- The loop is executing. -/
  | running
  /-- Terminal: opcode 1 with zero operands executed. -/
  | halted
  /-- Terminal: a fault ended the run. -/
  | faulted
  /-- Terminal: the loop found pc at or past memLen with halted false. -/
  | exhausted
  deriving DecidableEq, Repr

/-- The two fault kinds, "Two fault kinds only" (R89). -/
inductive FaultKind where
  /-- Opcode 1 with a nonzero operand. -/
  | invalidInstruction
  /-- A load at or past memLen, or a store past memLen. -/
  | outOfBoundsAccess
  deriving DecidableEq, Repr

/-- The fault record of a fault that was raised (R24). -/
structure FaultRecord where
  /-- What was raised. -/
  kind : FaultKind
  /-- "the raw faulting instruction value". -/
  instr : Word
  /-- "the fetch address", the pc before the increment: 10 bits. -/
  addr : BitVec 10
  deriving DecidableEq, Repr

/-- The memory contents, "a sequence of Word, length memLen": the word of address a stands at position a, and an
address at or past the length is unallocated and holds no value (R25, R28, R32; DESIGN CHOICE, safe: log
entries 1 and 3). -/
abbrev Memory := List Word

/-- The whole state of the core (10_state.md: "Nothing else is state"). The extent memLen is the length of `mem` and is
not stored a second time (R25, R28; DEDUCED, safe: log entry 2): see `State.memLen`. -/
structure State where
  /-- The register file: ten 10-bit registers (R13). -/
  x : Vector Word 10
  /-- The program counter, 11 bits (R18). -/
  pc : Pc
  /-- The memory: cell a is the word at position a, for a below memLen (R25, R30, R31). -/
  mem : Memory
  /-- The halted flag (R21). -/
  halted : Bool
  /-- The phase of the run (R22). -/
  phase : Phase
  /-- The instruction-attempt counter, an unbounded natural (R23). -/
  count : Nat
  /-- The fault record, `none` where no fault was recorded (R24). -/
  fault : Option FaultRecord
  deriving DecidableEq, Repr

/-- The memory extent memLen: the number of allocated cells (R12, R25). -/
def State.memLen (s : State) : Nat := s.mem.length

/-- The state right after reset (R29, R105). -/
def State.reset : State where
  x := Vector.replicate 10 0#10
  pc := Config.entry
  mem := []
  halted := false
  phase := .ready
  count := 0
  fault := none

/-- The reasons a step stops the machine. The spec's own two faults are no stops: taking one is a next state in phase
Faulted (R91; `State.raise`). -/
inductive Fault where
  /-- Raised by the fetch alone, when the pc is below memLen but past address 1023: no such cell exists (R31). It
  needs memLen > 1024, which R25 excludes, so no run reaches it. Safe: the machine stops. DESIGN
  CHOICE: log entry 6. -/
  | fetchPastAddressSpace
  deriving DecidableEq, Repr

/-- The reasons an instruction or a host's call is refused. -/
inductive Refusal where
  /-- An arm of `exec` that has no meaning yet. No arm raises it. Safe: nothing runs. -/
  | notModelled (mnemonic : String)
  /-- appendMemory of a value outside [0, 1023] (R38, D3). Raised by `hostAppend`. Safe: the call has no effect. -/
  | appendValueOutOfRange
  /-- appendMemory in a phase other than Ready (R38, D3). Raised by `hostAppend`. Safe: the call has no effect. -/
  | appendOutsideReady
  /-- appendMemory when all 1024 cells are allocated (R38, D3). Raised by `hostAppend`. Safe: no effect. -/
  | appendMemoryFull
  /-- reset() in phase Running: "It is accepted in every phase except Running" (R105). Raised by `hostReset`. Safe:
  the call has no effect. -/
  | resetWhileRunning
  /-- run() in phase Running: the host calls one operation at a time (R61, R102). Raised by `hostRun` and `run`.
  Safe: the call has no effect. -/
  | runWhileRunning
  deriving DecidableEq, Repr

end Sys2Proof.Machine
end

