-- ==== Sys2Proof/Machine/Ops.lean ====
section
/-!
DEFINITION. The named operations over registers, memory and the run: the register ports, MemRead and MemWrite, the
append at the end of memory, raising a fault, and starting and exhausting a run. There is no return from a fault (R95).
-/

namespace Sys2Proof.Machine

/-! ## Widening -/

/-- `zext_10` of a literal digit: the same number as a word (R8, R51). -/
def zextDigit (n : Digit) : Word := BitVec.ofNat 10 n.val

/-- `zext_11` of a word: the same number as a program-counter value (R8, R18). -/
def zextPc (w : Word) : Pc := w.setWidth 11

/-! ## Registers -/

/-- `x[i]`: the stored value, unchanged (R8, R16). Every register is readable (R15). -/
def State.reg (s : State) (i : RegIndex) : Word := s.x[i.val]

/-- `x[i] <- v`: the register holds v as it is (R8, R16). Every register is writable (R15). -/
def State.setReg (s : State) (i : RegIndex) (v : Word) : State := { s with x := s.x.set i.val v }

/-- `pc <- t` (R8). -/
def State.setPc (s : State) (t : Pc) : State := { s with pc := t }

/-! ## Memory -/

/-- The memory's canonical form. A sequence has its addresses in rising order and none twice by its type, and it lists
no unallocated address, so what is left to say is that it fits the address space (R25, R31). -/
def Memory.wf (m : Memory) : Bool := m.length ≤ Config.memCap

/-- What an address reads as: its word where it is allocated, no value where it is not (R32, D16). -/
def Memory.cell (m : Memory) (a : Nat) : Option Word := m[a]?

/-- `MemRead(a, 1)`; `none` stands for its `raise OutOfBoundsAccess` (R33). -/
def memRead (m : Memory) (a : Word) : Option Word :=
  if m.length ≤ a.toNat then none else m.cell a.toNat

/-- `MemWrite(a, 1, v)`; `none` stands for its `raise OutOfBoundsAccess` (R34). `grows` is the switch STORE_AT_END
(R6, D4): whether a store to address memLen extends the memory by exactly one cell. -/
def memWrite (grows : Bool) (m : Memory) (a v : Word) : Option Memory :=
  if a.toNat < m.length then some (m.set a.toNat v)
  else if a.toNat = m.length ∧ grows then some (m ++ [v])
  else none

/-- `mem[memLen] <- v; memLen <- memLen + 1`, what an accepted appendMemory does (R38). -/
def State.append (s : State) (v : Word) : State := { s with mem := s.mem ++ [v] }

/-- The state with the memory replaced. -/
def State.setMem (s : State) (m : Memory) : State := { s with mem := m }

/-! ## Raising a fault -/

/-- The fetch address of the instruction that is executing: the pc holds it plus one (R12, R18).
DEDUCED, safe in every step: log entry 4. -/
def State.fetchAddr (s : State) : BitVec 10 := (s.pc - 1#11).setWidth 10

/-- Raising fault k in the instruction i: the record holds the kind, the raw word and the fetch address, halted is
forced to true and the phase is Faulted; the pc and the count stay as the fetch left them, and no register and no
memory cell changes (R91, R93). -/
def State.raise (s : State) (k : FaultKind) (i : Instr) : State :=
  { s with
    fault := some { kind := k, instr := encode i, addr := s.fetchAddr }
    halted := true
    phase := .faulted }

/-! ## The run -/

/-- How a run begins: the phase is Running and the count 0 (R62). -/
def State.beginRun (s : State) : State := { s with phase := .running, count := 0 }

/-- The loop test found the pc at or past memLen (R63). -/
def State.exhaust (s : State) : State := { s with phase := .exhausted }

/-- What a fetch changes: the pc is one more (R65) and the count is one more (R66). -/
def State.fetchAdvance (s : State) : State := { s with pc := s.pc + 1#11, count := s.count + 1 }

end Sys2Proof.Machine
end

