-- ==== Sys2Proof/Machine/Operands.lean ====
section
/-!
DEFINITION. The operand forms (R50): a register's value through one of the two read ports (R75), a literal digit
zero-extended to a word (R51), and a register's value as a memory address or a jump target.
-/

namespace Sys2Proof.Machine

/-- Read port A: x[d], the register of p1 (R75). -/
def State.portA (s : State) (d : RegIndex) : Word := s.reg d

/-- Read port B: x[s], the register of p2 (R75). -/
def State.portB (s : State) (src : RegIndex) : Word := s.reg src

/-- The literal n: the digit itself, with no sign, shift or scale (R51). -/
def literal (n : Digit) : Word := zextDigit n

/-- The effective address of LD and ST: the whole value of the address register, with no offset (R85, R86). -/
def State.effAddr (s : State) (src : RegIndex) : Word := s.portB src

/-- The target of JNZ: the whole value of the target register, absolute (R87). -/
def State.jumpTarget (s : State) (d : RegIndex) : Pc := zextPc (s.portA d)

end Sys2Proof.Machine
end

