-- ==== Sys2Proof/Machine/Alu.lean ====
section
/-!
DEFINITION. The modular ALU and the register and ALU instructions, opcodes 2 to 7 (42_alu.md). Each reads its operands
before it writes x[d] (R70), and none sets a flag or can fault.
-/

namespace Sys2Proof.Machine

/-- `addmod(a, b) = (a + b) mod 1000`, computed exactly (R83). -/
def addmod (a b : Word) : Word := BitVec.ofNat 10 ((a.toNat + b.toNat) % Config.modulus)

/-- `mulmod(a, b) = (a * b) mod 1000`, computed exactly (R83). -/
def mulmod (a b : Word) : Word := BitVec.ofNat 10 ((a.toNat * b.toNat) % Config.modulus)

/-- SETI: x[d] <- n, raw (R77). -/
def execSeti (d : RegIndex) (n : Digit) (s : State) : Host.Outcome State Fault Refusal :=
  .next (s.setReg d (literal n))

/-- ADDI: x[d] <- addmod(x[d], n) (R78). -/
def execAddi (d : RegIndex) (n : Digit) (s : State) : Host.Outcome State Fault Refusal :=
  .next (s.setReg d (addmod (s.portA d) (literal n)))

/-- MULI: x[d] <- mulmod(x[d], n) (R79). -/
def execMuli (d : RegIndex) (n : Digit) (s : State) : Host.Outcome State Fault Refusal :=
  .next (s.setReg d (mulmod (s.portA d) (literal n)))

/-- MOV: x[d] <- x[s], raw (R80). -/
def execMov (d src : RegIndex) (s : State) : Host.Outcome State Fault Refusal :=
  .next (s.setReg d (s.portB src))

/-- ADD: x[d] <- addmod(x[d], x[s]) (R81). -/
def execAdd (d src : RegIndex) (s : State) : Host.Outcome State Fault Refusal :=
  .next (s.setReg d (addmod (s.portA d) (s.portB src)))

/-- MUL: x[d] <- mulmod(x[d], x[s]) (R82). -/
def execMul (d src : RegIndex) (s : State) : Host.Outcome State Fault Refusal :=
  .next (s.setReg d (mulmod (s.portA d) (s.portB src)))

end Sys2Proof.Machine
end

