-- ==== Sys2Proof/Machine/Flags.lean ====
section
/-!
DEFINITION. The core's status. It has no flag but `halted` (R26): no arithmetic instruction records carry, overflow or
zero, so there is no flag computation. Here are what sets halted beside a fault, and the codes of the status fields.
-/

namespace Sys2Proof.Machine

/-- What HALT does to the status: halted is true and the phase is Halted (R76). -/
def State.halt (s : State) : State := { s with halted := true, phase := .halted }

/-- The phase's 3-bit code (R22). -/
def Phase.code : Phase → BitVec 3
  | .ready => 0#3
  | .running => 1#3
  | .halted => 2#3
  | .faulted => 3#3
  | .exhausted => 4#3

/-- The terminal phases (R22, R68). -/
def Phase.terminal : Phase → Bool
  | .ready => false
  | .running => false
  | .halted => true
  | .faulted => true
  | .exhausted => true

/-- The fault kind's 2-bit code (R24, R89). -/
def FaultKind.code : FaultKind → BitVec 2
  | .invalidInstruction => 1#2
  | .outOfBoundsAccess => 2#2

end Sys2Proof.Machine
end

