-- ==== Sys2Proof/Machine/Halt.lean ====
section
/-!
DEFINITION. Opcode 1 (41_halt.md).
-/

namespace Sys2Proof.Machine

/-- Opcode 1 with operands p and q, as rule R76 writes it: InvalidInstruction if either is nonzero, and otherwise the
machine halts. On terms that are no instruction too (DESIGN CHOICE, safe: log entry 11). -/
def opcodeOne (p q : Digit) (i : Instr) (s : State) : Host.Outcome State Fault Refusal :=
  if p ≠ 0 ∨ q ≠ 0 then .next (s.raise .invalidInstruction i) else .next s.halt

/-- HALT (R76). -/
def execHalt (s : State) : Host.Outcome State Fault Refusal := opcodeOne 0 0 .halt s

/-- HALT-ILLEGAL, words 101 to 199 (R54, R76). -/
def execHaltIllegal (p q : Digit) (s : State) : Host.Outcome State Fault Refusal :=
  opcodeOne p q (.haltIllegal p q) s

end Sys2Proof.Machine
end

