-- ==== Sys2Proof/Machine/Jump.lean ====
section
/-!
DEFINITION. The conditional jump, opcode 0 (44_jump.md).
-/

namespace Sys2Proof.Machine

/-- JNZ: pc <- x[d] where x[s] is not 0, and otherwise the pc stays as the fetch left it (R87). -/
def execJnz (d src : RegIndex) (s : State) : Host.Outcome State Fault Refusal :=
  if s.portB src ≠ 0#10 then .next (s.setPc (s.jumpTarget d)) else .next s

end Sys2Proof.Machine
end

