-- ==== Sys2Proof/Machine/LoadStore.lean ====
section
/-!
DEFINITION. Load and store, opcodes 8 and 9 (43_memory_ops.md).
-/

namespace Sys2Proof.Machine

/-- LD: x[d] <- MemRead(x[s]), raw; OutOfBoundsAccess where that address is at or past memLen (R85). -/
def execLd (d src : RegIndex) (s : State) : Host.Outcome State Fault Refusal :=
  match memRead s.mem (s.effAddr src) with
  | some v => .next (s.setReg d v)
  | none => .next (s.raise .outOfBoundsAccess (.ld d src))

/-- A store, with the switch STORE_AT_END given (R6, R86). -/
def storeWith (grows : Bool) (d src : RegIndex) (s : State) : Host.Outcome State Fault Refusal :=
  match memWrite grows s.mem (s.effAddr src) (s.portA d) with
  | some m => .next (s.setMem m)
  | none => .next (s.raise .outOfBoundsAccess (.st d src))

/-- ST: MemWrite(x[s], x[d]); OutOfBoundsAccess where that address is past memLen (R86, D4). -/
def execSt (d src : RegIndex) (s : State) : Host.Outcome State Fault Refusal :=
  storeWith Config.storeAtEndGrows d src s

end Sys2Proof.Machine
end

