-- ==== Sys2Proof/Machine/Undispatched.lean ====
section
/-!
DEFINITION. Undispatched words, opcode value 10 (45_undispatched.md).
-/

namespace Sys2Proof.Machine

/-- An undispatched word, with the switch UNDISPATCHED given: nothing beyond the fetch, or in the source's strict mode
InvalidInstruction (R6, R88; 93_implementation_defined.md item 1). -/
def undispatchedWith (faults : Bool) (i : Instr) (s : State) : Host.Outcome State Fault Refusal :=
  if faults then .next (s.raise .invalidInstruction i) else .next s

/-- UNDISPATCHED: nothing beyond the fetch (R55, R88, D5). -/
def execUndispatched (p q : Digit) (s : State) : Host.Outcome State Fault Refusal :=
  undispatchedWith Config.undispatchedFaults (.undispatched p q) s

end Sys2Proof.Machine
end

