-- ==== Sys2Proof/Machine/Dispatch.lean ====
section
/-!
DEFINITION. `execute(op, p1, p2)` (R67): one arm per instruction, each one call of its meaning. The state given is the
one after the fetch, whose pc is the fetch address plus one and whose count includes the instruction (R65, R66).
-/

namespace Sys2Proof.Machine

def exec (i : Instr) (s : State) : Host.Outcome State Fault Refusal :=
  match i with
  | .halt => Sys2Proof.Machine.execHalt s
  | .haltIllegal p q => Sys2Proof.Machine.execHaltIllegal p q s
  | .seti d n => Sys2Proof.Machine.execSeti d n s
  | .addi d n => Sys2Proof.Machine.execAddi d n s
  | .muli d n => Sys2Proof.Machine.execMuli d n s
  | .mov d src => Sys2Proof.Machine.execMov d src s
  | .add d src => Sys2Proof.Machine.execAdd d src s
  | .mul d src => Sys2Proof.Machine.execMul d src s
  | .ld d src => Sys2Proof.Machine.execLd d src s
  | .st d src => Sys2Proof.Machine.execSt d src s
  | .jnz d src => Sys2Proof.Machine.execJnz d src s
  | .undispatched p q => Sys2Proof.Machine.execUndispatched p q s

end Sys2Proof.Machine
end

