-- ==== Sys2Proof/Machine/Fetch.lean ====
section
/-!
DEFINITION. The head of an engine step: the loop test and the fetch (R63 to R66), what the core does in the other
phases (R62, R68, R73), and the placing of a word where the next fetch reads it.
-/

namespace Sys2Proof.Machine

/-- What the head of a step finds. -/
inductive StepHead where
  /-- No instruction runs in this step, which leaves the state `t`. -/
  | noFetch (t : State)
  /-- The address to fetch from is past the address space. -/
  | noCell
  /-- The word `w` was fetched, which leaves the state `t` to execute it in. -/
  | fetched (w : Word) (t : State)
  deriving DecidableEq, Repr

/-- The fetch: the word at the pc, and the pc and the count one more (R63 to R66). The loop test has been made by
reading the cell: the pc is at or past memLen exactly where there is none, and the run is then Exhausted (R63, C3). A pc
past the address space with a cell there is in no state of the core (R25; DESIGN CHOICE,
safe: log entry 6). -/
def fetch (s : State) : StepHead :=
  match s.mem.cell s.pc.toNat with
  | none => .noFetch s.exhaust
  | some w => if s.pc.toNat < Config.memCap then .fetched w s.fetchAdvance else .noCell

/-- The head of a step, by phase. In Running it is the loop test and the fetch (R63). In Ready the host calls run()
(R62; DESIGN CHOICE, unsafe for a host that does not call it: log entry 5). In a terminal phase nothing changes any
state (R68, R73). -/
def stepHead (s : State) : StepHead :=
  match s.phase with
  | .ready => .noFetch s.beginRun
  | .running => if s.halted then .noFetch s else fetch s
  | .halted => .noFetch s
  | .faulted => .noFetch s
  | .exhausted => .noFetch s

/-- The memory with `w` at address `a`: over the cell there, or past the end after as many zero words as it takes. -/
def Memory.place (m : Memory) (a : Nat) (w : Word) : Memory :=
  if a < m.length then m.set a w else m ++ List.replicate (a - m.length) 0#10 ++ [w]

/-- `s` made to fetch the value `v` next: the word at the pc, the phase Running and halted false. Where `v` is no word,
or the pc is past the address space, there is no such cell and `s` is left as it is.
DESIGN CHOICE, unsafe if read as an operation of the core: log entry 8. -/
def State.placeNext (s : State) (v : Nat) : State :=
  if v ≤ Config.wordMax ∧ s.pc.toNat < Config.memCap then
    { s with mem := s.mem.place s.pc.toNat (BitVec.ofNat 10 v), phase := .running, halted := false }
  else s

end Sys2Proof.Machine
end

