-- ==== Sys2Proof/Machine/Step.lean ====
section
/-!
DEFINITION. One step of the machine (R63), and the state in which a given word is fetched next.
-/

namespace Sys2Proof.Machine

/-- One step: the loop test and the fetch, then the decoded instruction's execution on the state after the fetch
(R63, R64, R71). -/
def step (s : State) : Host.Outcome State Fault Refusal :=
  match stepHead s with
  | .noFetch t => .next t
  | .noCell => .fault .fetchPastAddressSpace
  | .fetched w t => exec (decode w) t

/-- `s` with the instruction of `nbits` bits `w` stored where the next fetch reads it, and the run going (log entry 8).
An instruction is one cell (R47), so the bits above `nbits` are 0 and nothing follows it. -/
def State.withFetchWord (s : State) (nbits w : Nat) : State := s.placeNext (w % 2 ^ nbits)

end Sys2Proof.Machine
end

