-- ==== Sys2Proof/Machine/HostPort.lean ====
section
/-!
DEFINITION. The core's interface to the host (R61, R102): reset(), appendMemory(v), the start of run(), and what the
host sees. A call outside the host's contract is refused by name and has no effect (R38, R105, D3).
-/

namespace Sys2Proof.Machine

/-- `reset()` (R105): every element of the state at its reset value, in every phase except Running. -/
def hostReset (s : State) : Host.Outcome State Fault Refusal :=
  if s.phase = .running then .refused .resetWhileRunning else .next State.reset

/-- `appendMemory(v)` (R38): accepted in phase Ready, for 0 <= v <= 1023, while memLen < 1024; otherwise refused. -/
def hostAppend (v : Int) (s : State) : Host.Outcome State Fault Refusal :=
  if s.phase ≠ .ready then .refused .appendOutsideReady
  else if v < 0 ∨ (Config.wordMax : Int) < v then .refused .appendValueOutOfRange
  else if s.memLen < Config.memCap then .next (s.append (BitVec.ofNat 10 v.toNat))
  else .refused .appendMemoryFull

/-- The start of `run()` (R62): in Ready the run begins; in a terminal phase nothing changes (R73); in Running the call
is outside the contract (R102; DEDUCED, safe: log entry 9). -/
def hostRun (s : State) : Host.Outcome State Fault Refusal :=
  match s.phase with
  | .ready => .next s.beginRun
  | .running => .refused .runWhileRunning
  | .halted => .next s
  | .faulted => .next s
  | .exhausted => .next s

/-- The host's calls that act on the core (R61). The fault report acts on nothing: `State.faultReport`. -/
inductive HostCall where
  /-- `reset()`. -/
  | reset
  /-- `appendMemory(v)`. -/
  | appendMemory (v : Int)
  /-- `run()`, its start. -/
  | run
  deriving DecidableEq, Repr

/-- What a call of the host does. -/
def hostCall (c : HostCall) (s : State) : Host.Outcome State Fault Refusal :=
  match c with
  | .reset => hostReset s
  | .appendMemory v => hostAppend v s
  | .run => hostRun s

/-- The appends of a program's words in address order (R108): the first refusal ends it. -/
def hostAppendAll : List Int → State → Host.Outcome State Fault Refusal
  | [], s => .next s
  | v :: vs, s =>
    match hostAppend v s with
    | .next t => hostAppendAll vs t
    | .fault r => .fault r
    | .refused r => .refused r

/-- The fault report: the fault record, where a fault was recorded (R92). -/
def State.faultReport (s : State) : Option FaultRecord := s.fault

/-- What the host observes of the core: run's count, the phase and the fault report, and nothing else (R27, R103, D18). -/
structure HostView where
  /-- run's result (R69). -/
  count : Nat
  /-- The phase (D18). -/
  phase : Phase
  /-- The fault report (R92). -/
  report : Option FaultRecord
  deriving DecidableEq, Repr

/-- The host's view of a state (R103). -/
def State.hostView (s : State) : HostView := { count := s.count, phase := s.phase, report := s.faultReport }

end Sys2Proof.Machine
end

