-- ==== Sys2Proof/Machine/Run.lean ====
section
/-!
DEFINITION. `run()` as the host calls it: engine steps until one leaves Running, and then the count (R62, R69, R73). A
run may go on forever (R74), so it is given a number of steps, and says so when they run out
(DESIGN CHOICE, safe: log entry 10).
-/

namespace Sys2Proof.Machine

/-- How a call of run() comes out. -/
inductive RunResult where
  /-- run() returned this count and left this state. -/
  | returned (count : Nat) (final : State)
  /-- The steps given ran out with the phase still Running: never a final state (R74). -/
  | outOfFuel (s : State)
  /-- A step stopped. -/
  | fault (r : Fault)
  /-- The call was refused. -/
  | refused (r : Refusal)
  deriving DecidableEq, Repr

/-- Engine steps while the phase is Running, at most `fuel` of them, and then the count kept in the state (R62, R69). -/
def runSteps (fuel : Nat) (s : State) : RunResult :=
  match fuel with
  | 0 => if s.phase = .running then .outOfFuel s else .returned s.count s
  | k + 1 =>
    if s.phase = .running then
      match step s with
      | .next t => runSteps k t
      | .fault r => .fault r
      | .refused r => .refused r
    else .returned s.count s

/-- `run()` (R62, R69): from Ready the run begins and its steps follow. In a terminal phase it returns 0, and no state
changes (R73, D14). In Running the call is outside the contract (R102). -/
def run (fuel : Nat) (s : State) : RunResult :=
  match s.phase with
  | .ready => runSteps fuel s.beginRun
  | .running => .refused .runWhileRunning
  | .halted => .returned 0 s
  | .faulted => .returned 0 s
  | .exhausted => .returned 0 s

end Sys2Proof.Machine
end

