-- ==== Sys2Proof/Safety.lean ====
section
/-!
DEFINITION. The terms claims are stated in: the invariant of the core's states, the edges a phase may move along, the
registers an instruction reads and writes, what two states share, and the number of fetches of a run.
-/

namespace Sys2Proof.Machine

/-! ## The invariant -/

/-- That a fault record is the one a fault of this state's last instruction makes: the word is the one at the recorded
address, the pc is one past it (R91), and the condition that rule R89 gives for the word's fault still holds, since a
faulting instruction changes no register and no cell (R93). -/
def State.faultJustified (s : State) (r : FaultRecord) : Bool :=
  s.mem.cell r.addr.toNat == some r.instr && s.pc.toNat == r.addr.toNat + 1 &&
    match decode r.instr with
    | .haltIllegal _ _ => r.kind == .invalidInstruction
    | .ld _ src => r.kind == .outOfBoundsAccess && decide (s.memLen ≤ (s.reg src).toNat)
    | .st _ src => r.kind == .outOfBoundsAccess && decide (s.memLen < (s.reg src).toNat)
    | .halt => false
    | .seti _ _ => false
    | .addi _ _ => false
    | .muli _ _ => false
    | .mov _ _ => false
    | .add _ _ => false
    | .mul _ _ => false
    | .jnz _ _ => false
    | .undispatched _ _ => false

/-- Phase Ready: only reset() and appendMemory have acted (R72), so all but the memory is at its reset value (R29). -/
abbrev State.ReadyInv (s : State) : Prop :=
  s.halted = false ∧ s.fault = none ∧ s.count = 0 ∧ s.pc = Config.entry ∧ s.x = State.reset.x

/-- Phase Running: no HALT and no fault has been executed (R63, R68). -/
abbrev State.RunningInv (s : State) : Prop := s.halted = false ∧ s.fault = none

/-- Phase Halted: HALT was the last instruction fetched (R68, R76). -/
abbrev State.HaltedInv (s : State) : Prop :=
  s.halted = true ∧ s.fault = none ∧ 0 < s.count ∧ 0 < s.pc.toNat ∧ s.mem.cell (s.pc.toNat - 1) = some 100#10

/-- Phase Faulted: there is a fault record, and the last instruction fetched justifies it (R68, R91). -/
abbrev State.FaultedInv (s : State) : Prop :=
  s.halted = true ∧ 0 < s.count ∧ (s.fault.any fun r => s.faultJustified r) = true

/-- Phase Exhausted: the pc is at or past memLen, with halted false and no fault (R63, R68). -/
abbrev State.ExhaustedInv (s : State) : Prop := s.halted = false ∧ s.fault = none ∧ s.memLen ≤ s.pc.toNat

/-- The invariant of the core's states: the memory fits the address space (R25), the pc is at most 1024 (R18), and
each phase has the status rules R22, R63 and R68 give it. -/
abbrev State.Inv (s : State) : Prop :=
  s.mem.wf = true ∧ s.pc.toNat ≤ Config.memCap ∧
    (s.phase = .ready → s.ReadyInv) ∧ (s.phase = .running → s.RunningInv) ∧ (s.phase = .halted → s.HaltedInv) ∧
    (s.phase = .faulted → s.FaultedInv) ∧ (s.phase = .exhausted → s.ExhaustedInv)

/-! ## Where a step fetches -/

/-- That the next step fetches the word w: the phase is Running, halted is false, and w is the word at the pc, which is
an address (R63, R64). -/
abbrev State.Fetches (s : State) (w : Word) : Prop :=
  s.phase = .running ∧ s.halted = false ∧ s.pc.toNat < Config.memCap ∧ s.mem.cell s.pc.toNat = some w

/-- The state in which a fetched instruction executes: pc and count one more (R65, R66). -/
abbrev State.afterFetch (s : State) : State := { s with pc := s.pc + 1#11, count := s.count + 1 }

/-- The fault that rule R89 gives a word fetched in the state s, read from the word's decimal value alone: words 101
to 199, a load (opcode 8) from x[s] at or past memLen, and a store (opcode 9) to x[s] past memLen. -/
def raisedBy (w : Word) (s : State) : Option FaultKind :=
  if 101 ≤ w.toNat ∧ w.toNat ≤ 199 then some .invalidInstruction
  else if w.toNat / 100 = 8 ∧ s.memLen ≤ (s.reg (Fin.ofNat 10 w.toNat)).toNat then some .outOfBoundsAccess
  else if w.toNat / 100 = 9 ∧ s.memLen < (s.reg (Fin.ofNat 10 w.toNat)).toNat then some .outOfBoundsAccess
  else none

/-- The state in which a fault of kind k leaves a machine that fetched w in s: the record of rule R91 at the fetch
address, halted true and phase Faulted, on top of the fetch's own changes (R93). -/
abbrev State.afterFault (s : State) (k : FaultKind) (w : Word) : State :=
  { s.afterFetch with
    fault := some { kind := k, instr := w, addr := s.pc.setWidth 10 }
    halted := true
    phase := .faulted }

/-! ## The edges of the phase -/

/-- The edges of rule R72 that run() and the engine's steps take, with staying in a phase. -/
def Phase.stepEdge : Phase → Phase → Bool
  | .ready, .running => true
  | .running, q => q != .ready
  | .halted, .halted => true
  | .faulted, .faulted => true
  | .exhausted, .exhausted => true
  | _, _ => false

/-! ## The registers of an instruction -/

/-- The registers an instruction reads in the state s (R17): JNZ reads its target register only when it jumps. -/
def instrReads (i : Instr) (s : State) : List RegIndex :=
  match i with
  | .halt => []
  | .haltIllegal _ _ => []
  | .seti _ _ => []
  | .addi d _ => [d]
  | .muli d _ => [d]
  | .mov _ src => [src]
  | .add d src => [d, src]
  | .mul d src => [d, src]
  | .ld _ src => [src]
  | .st d src => [d, src]
  | .jnz d src => if s.reg src = 0#10 then [src] else [d, src]
  | .undispatched _ _ => []

/-- The register an instruction writes, where it does not fault (R17). -/
def instrWrites (i : Instr) : List RegIndex :=
  match i with
  | .halt => []
  | .haltIllegal _ _ => []
  | .seti d _ => [d]
  | .addi d _ => [d]
  | .muli d _ => [d]
  | .mov d _ => [d]
  | .add d _ => [d]
  | .mul d _ => [d]
  | .ld d _ => [d]
  | .st _ _ => []
  | .jnz _ _ => []
  | .undispatched _ _ => []

/-! ## What two states share -/

/-- The same status: halted, phase, count and fault record. -/
abbrev State.SameStatus (s t : State) : Prop :=
  t.halted = s.halted ∧ t.phase = s.phase ∧ t.count = s.count ∧ t.fault = s.fault

/-- The same registers. -/
abbrev State.SameRegs (s t : State) : Prop := ∀ r : RegIndex, t.reg r = s.reg r

/-- The same memory: the same extent, and every address reads as before. -/
abbrev State.SameMem (s t : State) : Prop := t.memLen = s.memLen ∧ ∀ a : Nat, t.mem.cell a = s.mem.cell a

/-- The two states differ at most in the register d. -/
abbrev State.SameButReg (d : RegIndex) (s t : State) : Prop :=
  (∀ r : RegIndex, r ≠ d → t.reg r = s.reg r) ∧ t.pc = s.pc ∧ s.SameMem t ∧ s.SameStatus t

/-! ## Runs -/

/-- The number of fetches in `k` steps from s. -/
def fetchesIn (k : Nat) (s : State) : Nat :=
  match k with
  | 0 => 0
  | j + 1 =>
    (match stepHead s with
      | .noFetch _ => 0
      | .noCell => 0
      | .fetched _ _ => 1) +
    (match step s with
      | .next t => fetchesIn j t
      | .fault _ => 0
      | .refused _ => 0)

/-- Every register and every memory cell holds a value an ALU result may have, at most 999 (R84, C2). -/
abbrev State.LowWords (s : State) : Prop :=
  (∀ r : RegIndex, (s.reg r).toNat ≤ 999) ∧ ∀ (a : Nat) (w : Word), s.mem.cell a = some w → w.toNat ≤ 999

end Sys2Proof.Machine
end

