-- ==== Sys2Proof/Certificates/Slice0/Obligations.lean ====
section
/-!
DEFINITION. The statements about the core. Each docstring names the rule of spec/ it formalises. No statement here rests
on a free value: the model has none.
-/

open Sys2Proof Sys2Proof.Machine

/-! ## Encoding -/

/-- Decoding an encoded instruction gives it back, for every well-formed instruction, every operand at every value
(R60 with the opcode map R53). -/
def Obligations.DecodeInvertsEncode : Prop :=
  ∀ i : Instr, i.WellFormed → decode (encode i) = i

/-- Every word decodes to a well-formed instruction that encodes back to it, and to no other (R49, R60). -/
def Obligations.EveryWordIsOneInstruction : Prop :=
  ∀ (w : Word) (i : Instr), (i.WellFormed ∧ encode i = w) ↔ i = decode w

/-- R48: the fields of a word are its hundreds-and-above, its tens digit and its units digit; the instruction is chosen
from these fields; the inverse is the decimal sum; a word's op is at most 10. -/
def Obligations.FieldsAreDecimalDigits : Prop :=
  (∀ v : Nat, (splitFields v).1 = v / 100 ∧ (splitFields v).2.1.val = v / 10 % 10 ∧ (splitFields v).2.2.val = v % 10 ∧
    v = 100 * (splitFields v).1 + 10 * (splitFields v).2.1.val + (splitFields v).2.2.val) ∧
  ∀ w : Word, (splitFields w.toNat).1 ≤ 10 ∧
    decode w = instrOfFields (w.toNat / 100) (Fin.ofNat 10 (w.toNat / 10)) (Fin.ofNat 10 w.toNat)

/-- R60: encoding and splitting are inverse on fields with op at most 9, and the encoding is one-to-one onto 0 to 999;
the formula also gives back the words 1000 to 1023, with op 10. -/
def Obligations.FieldsRoundTrip : Prop :=
  (∀ (op : Nat) (p1 p2 : Digit), op ≤ 9 → joinFields op p1 p2 = 100 * op + 10 * p1.val + p2.val ∧
    joinFields op p1 p2 ≤ 999 ∧ splitFields (joinFields op p1 p2) = (op, p1, p2)) ∧
  (∀ (op op' : Nat) (p1 p2 p1' p2' : Digit), op ≤ 9 → op' ≤ 9 → joinFields op p1 p2 = joinFields op' p1' p2' →
    op = op' ∧ p1 = p1' ∧ p2 = p2') ∧
  (∀ v : Nat, v ≤ 999 → (splitFields v).1 ≤ 9 ∧
    joinFields (splitFields v).1 (splitFields v).2.1 (splitFields v).2.2 = v) ∧
  ∀ v : Nat, 1000 ≤ v → v ≤ 1023 → (splitFields v).1 = 10 ∧
    joinFields 10 (splitFields v).2.1 (splitFields v).2.2 = v

/-- The rows of the opcode map (R53, R67), by the words each takes. -/
def Obligations.OpcodeMapRows : Prop :=
  ∀ w : Word,
    (w.toNat ≤ 99 → decode w = .jnz (dig w.toNat 1) (dig w.toNat 0)) ∧
    (w.toNat = 100 → decode w = .halt) ∧
    (101 ≤ w.toNat → w.toNat ≤ 199 → decode w = .haltIllegal (dig w.toNat 1) (dig w.toNat 0)) ∧
    (200 ≤ w.toNat → w.toNat ≤ 299 → decode w = .seti (dig w.toNat 1) (dig w.toNat 0)) ∧
    (300 ≤ w.toNat → w.toNat ≤ 399 → decode w = .addi (dig w.toNat 1) (dig w.toNat 0)) ∧
    (400 ≤ w.toNat → w.toNat ≤ 499 → decode w = .muli (dig w.toNat 1) (dig w.toNat 0)) ∧
    (500 ≤ w.toNat → w.toNat ≤ 599 → decode w = .mov (dig w.toNat 1) (dig w.toNat 0)) ∧
    (600 ≤ w.toNat → w.toNat ≤ 699 → decode w = .add (dig w.toNat 1) (dig w.toNat 0)) ∧
    (700 ≤ w.toNat → w.toNat ≤ 799 → decode w = .mul (dig w.toNat 1) (dig w.toNat 0)) ∧
    (800 ≤ w.toNat → w.toNat ≤ 899 → decode w = .ld (dig w.toNat 1) (dig w.toNat 0)) ∧
    (900 ≤ w.toNat → w.toNat ≤ 999 → decode w = .st (dig w.toNat 1) (dig w.toNat 0)) ∧
    (1000 ≤ w.toNat → decode w = .undispatched (dig w.toNat 1) (dig w.toNat 0))

/-- One word of each row, from the decode vectors of 95_test_vectors.md and the examples of files 41 to 45. -/
def Obligations.SampleWordsDecode : Prop :=
  decode 0#10 = .jnz 0 0 ∧ decode 41#10 = .jnz 4 1 ∧ decode 100#10 = .halt ∧ decode 111#10 = .haltIllegal 1 1 ∧
  decode 212#10 = .seti 1 2 ∧ decode 312#10 = .addi 1 2 ∧ decode 412#10 = .muli 1 2 ∧ decode 507#10 = .mov 0 7 ∧
  decode 612#10 = .add 1 2 ∧ decode 734#10 = .mul 3 4 ∧ decode 801#10 = .ld 0 1 ∧ decode 999#10 = .st 9 9 ∧
  decode 1000#10 = .undispatched 0 0 ∧ decode 1023#10 = .undispatched 2 3

/-! ## Steps and runs -/

/-- Where the next step fetches w, the step is the execution of the decoded instruction on the state in which the pc and
the count are one more, and the pc has not wrapped (R63 to R66, R71, R20). -/
def Obligations.StepRunsDecodedInstruction : Prop :=
  ∀ (s : State) (w : Word), s.Fetches w →
    step s = exec (decode w) { s with pc := s.pc + 1#11, count := s.count + 1 } ∧
    (s.pc + 1#11).toNat = s.pc.toNat + 1

/-- R63: in Running, a step with halted true returns; otherwise a pc at or past memLen makes the run Exhausted, with no
fault; otherwise the word at the pc is fetched, pc and count are one more, and the decoded instruction executes. -/
def Obligations.EngineStepCases : Prop :=
  ∀ s : State, s.mem.wf = true → s.phase = .running →
    (s.halted = true → step s = .next s) ∧
    (s.halted = false → s.memLen ≤ s.pc.toNat → step s = .next { s with phase := .exhausted }) ∧
    (s.halted = false → s.pc.toNat < s.memLen → ∃ w, s.mem.cell s.pc.toNat = some w ∧
      step s = exec (decode w) { s with pc := s.pc + 1#11, count := s.count + 1 })

/-- R73: run() in a terminal phase returns 0 and changes no state; no step changes any state either. -/
def Obligations.TerminalPhasesAreFixed : Prop :=
  ∀ (s : State) (fuel : Nat), s.phase = .halted ∨ s.phase = .faulted ∨ s.phase = .exhausted →
    run fuel s = .returned 0 s ∧ hostRun s = .next s ∧ step s = .next s

/-- The model's choice (log entry 5): a step in phase Ready is the host's call of run(), which sets phase Running and
count 0 and changes nothing else (R62). -/
def Obligations.ReadyStepStartsRun : Prop :=
  ∀ s : State, s.phase = .ready →
    step s = .next { s with phase := .running, count := 0 } ∧ step s = hostRun s

/-- R72: the phase moves only along the table's edges: by steps, and by the host's calls. -/
def Obligations.PhaseMovesAlongEdges : Prop :=
  (∀ s t : State, step s = .next t → Phase.stepEdge s.phase t.phase = true) ∧
  (∀ s t : State, hostCall .reset s = .next t → t.phase = .ready) ∧
  (∀ (v : Int) (s t : State), hostCall (.appendMemory v) s = .next t → s.phase = .ready ∧ t.phase = .ready) ∧
  ∀ s t : State, hostCall .run s = .next t →
    (s.phase = .ready ∧ t.phase = .running) ∨ (s.phase.terminal = true ∧ t = s)

/-- R68: a run leaves Running in exactly one of three ways, and then no further step changes any state. -/
def Obligations.RunningIsLeftThreeWays : Prop :=
  ∀ s t : State, s.Inv → s.phase = .running → step s = .next t → t.phase ≠ .running →
    ((t.phase = .halted ∧ s.Fetches 100#10 ∧ t.halted = true ∧ t.fault = none) ∨
     (t.phase = .faulted ∧ (∃ w k, s.Fetches w ∧ raisedBy w s = some k) ∧ t.halted = true ∧ t.fault ≠ none) ∨
     (t.phase = .exhausted ∧ t.halted = false ∧ t.memLen ≤ t.pc.toNat)) ∧
    step t = .next t

/-- R69: run() returns the count when phase leaves Running, which is the number of fetches made during the run; an empty
memory gives 0, Exhausted. -/
def Obligations.RunReturnsFetchCount : Prop :=
  (∀ (fuel c : Nat) (s t : State), s.phase = .ready → run fuel s = .returned c t →
    t.phase ≠ .running ∧ t.phase ≠ .ready ∧ c = t.count ∧ c = fetchesIn fuel s.beginRun) ∧
  ∀ (fuel : Nat) (s : State), s.phase = .ready → s.halted = false → s.memLen = 0 →
    run (fuel + 1) s = .returned 0 { s with phase := .exhausted, count := 0 }

/-- A run that returned returns the same with more steps allowed: how long the model lets it go on does not matter
(R69, R74). -/
def Obligations.RunResultIsStable : Prop :=
  ∀ (fuel k c : Nat) (s t : State), run fuel s = .returned c t → run (fuel + k) s = .returned c t

/-- R66: the count goes up by one with every fetch, whatever the fetched instruction does, and with nothing else in a
run. -/
def Obligations.CountCountsFetches : Prop :=
  (∀ (s t : State) (w : Word), s.Fetches w → step s = .next t → t.count = s.count + 1) ∧
  ∀ s t : State, s.phase = .running → (∀ w, ¬ s.Fetches w) → step s = .next t → t.count = s.count

/-- R19: the pc advances by exactly 1 at every fetch; a taken conditional jump overwrites the incremented value, and no
other instruction writes the pc. -/
def Obligations.PcAdvancesUnlessJumping : Prop :=
  ∀ (s t : State) (w : Word), s.Fetches w → step s = .next t →
    (∀ d src, decode w = .jnz d src → s.reg src ≠ 0#10 → t.pc.toNat = (s.reg d).toNat) ∧
    ((∀ d src, decode w = .jnz d src → s.reg src = 0#10) → t.pc.toNat = s.pc.toNat + 1)

/-- Placing an opcode-table word for the next fetch makes the very next step execute what the decoder reads from it (the
model's own way of loading one word: log entry 8). -/
def Obligations.PlacedWordRunsNext : Prop :=
  ∀ (s : State) (nbits w : Nat) (i : Instr), decodeTableWord nbits w = some i → s.pc.toNat < 1024 →
    step (s.withFetchWord nbits w) = exec i (s.withFetchWord nbits w).afterFetch

/-! ## Reset and the host's calls -/

/-- R29: after reset every element of the state has the table's value. -/
def Obligations.ResetValues : Prop :=
  (∀ r : RegIndex, State.reset.reg r = 0#10) ∧ State.reset.pc = 0#11 ∧ State.reset.mem = [] ∧ State.reset.memLen = 0 ∧
  State.reset.halted = false ∧ State.reset.phase = .ready ∧ State.reset.count = 0 ∧ State.reset.fault = none

/-- R105: reset() sets every element to its reset value in every phase except Running; its result does not depend on
the state before it, and it is idempotent (R106). -/
def Obligations.HostResetRestores : Prop :=
  ∀ s : State,
    (s.phase ≠ .running → ∃ t, hostReset s = .next t ∧ hostReset t = .next t ∧ (∀ r : RegIndex, t.reg r = 0#10) ∧
      t.pc = 0#11 ∧ t.mem = [] ∧ t.memLen = 0 ∧ t.halted = false ∧ t.phase = .ready ∧ t.count = 0 ∧ t.fault = none) ∧
    (s.phase = .running → ∀ t, hostReset s ≠ .next t)

/-- R38: appendMemory(v) in phase Ready, with v a word and room left, puts v in the cell memLen and changes nothing
else; any other append is refused. -/
def Obligations.AppendMemoryContract : Prop :=
  ∀ (s : State) (v : Int),
    (s.phase = .ready → 0 ≤ v → v ≤ 1023 → s.memLen < 1024 → ∃ t w, hostAppend v s = .next t ∧
      (w.toNat : Int) = v ∧ t.mem.cell s.memLen = some w ∧ t.memLen = s.memLen + 1 ∧
      (∀ a : Nat, a ≠ s.memLen → t.mem.cell a = s.mem.cell a) ∧ s.SameRegs t ∧ t.pc = s.pc ∧ s.SameStatus t) ∧
    (s.phase ≠ .ready ∨ v < 0 ∨ 1023 < v ∨ 1024 ≤ s.memLen → ∃ r, hostAppend v s = .refused r)

/-- R103: in a terminal phase the phase is derivable: Faulted where there is a fault record, and otherwise Halted where
halted is true. -/
def Obligations.TerminalPhaseIsDerivable : Prop :=
  ∀ s : State, s.Inv → s.phase.terminal = true →
    (s.phase = .faulted ↔ s.faultReport ≠ none) ∧
    (s.faultReport = none → (s.phase = .halted ↔ s.halted = true))

/-! ## Opcode 1 and undispatched words -/

/-- R76: word 100 halts; opcode 1 with a nonzero operand raises InvalidInstruction, recorded with the word and the fetch
address a; and HALT is the only way to reach phase Halted. -/
def Obligations.OpcodeOneHaltsOrFaults : Prop :=
  decode 100#10 = .halt ∧
  (∀ s : State, exec .halt s = .next { s with halted := true, phase := .halted }) ∧
  (∀ p q : Digit, p ≠ 0 ∨ q ≠ 0 → decode (BitVec.ofNat 10 (100 + 10 * p.val + q.val)) = .haltIllegal p q ∧
    ∀ (s : State) (a : Word), s.pc = zextPc a + 1#11 → exec (.haltIllegal p q) s = .next
      { s with
        fault := some { kind := .invalidInstruction, instr := BitVec.ofNat 10 (100 + 10 * p.val + q.val), addr := a }
        halted := true
        phase := .faulted }) ∧
  ∀ (i : Instr) (s t : State), i.WellFormed → i ≠ .halt → exec i s = .next t → s.phase ≠ .halted → t.phase ≠ .halted

/-- R54: fetching a word of 101 to 199 raises InvalidInstruction at execute, after the fetch has advanced the pc and the
count, and these are the only illegal words. -/
def Obligations.IllegalWordsFault : Prop :=
  ∀ (s : State) (w : Word), s.Fetches w →
    (101 ≤ w.toNat → w.toNat ≤ 199 → step s = .next
      { s with
        pc := s.pc + 1#11
        count := s.count + 1
        fault := some { kind := .invalidInstruction, instr := w, addr := s.pc.setWidth 10 }
        halted := true
        phase := .faulted }) ∧
    (w.toNat < 101 ∨ 199 < w.toNat → s.fault = none →
      ∀ (t : State) (r : FaultRecord), step s = .next t → t.fault = some r → r.kind ≠ .invalidInstruction)

/-- R55: the words 1000 to 1023 are undispatched; executing one changes nothing beyond the fetch. -/
def Obligations.UndispatchedWordsDoNothing : Prop :=
  (∀ w : Word, 1000 ≤ w.toNat ↔ ∃ p q, decode w = .undispatched p q) ∧
  (∀ (p q : Digit) (s : State), exec (.undispatched p q) s = .next s) ∧
  ∀ (s : State) (w : Word), s.Fetches w → 1000 ≤ w.toNat →
    step s = .next { s with pc := s.pc + 1#11, count := s.count + 1 }

/-! ## Register and ALU instructions -/

/-- R77: SETI writes the literal, raw, and nothing else. -/
def Obligations.SetiWritesLiteral : Prop :=
  ∀ (d : RegIndex) (n : Digit) (s : State), decode (BitVec.ofNat 10 (200 + 10 * d.val + n.val)) = .seti d n ∧
    ∃ t, exec (.seti d n) s = .next t ∧ (t.reg d).toNat = n.val ∧ s.SameButReg d t

/-- R78: ADDI writes (x[d] + n) mod 1000, and nothing else. -/
def Obligations.AddiAddsModulo : Prop :=
  ∀ (d : RegIndex) (n : Digit) (s : State), decode (BitVec.ofNat 10 (300 + 10 * d.val + n.val)) = .addi d n ∧
    ∃ t, exec (.addi d n) s = .next t ∧ (t.reg d).toNat = ((s.reg d).toNat + n.val) % 1000 ∧ s.SameButReg d t

/-- R79: MULI writes (x[d] * n) mod 1000, and nothing else. -/
def Obligations.MuliMultipliesModulo : Prop :=
  ∀ (d : RegIndex) (n : Digit) (s : State), decode (BitVec.ofNat 10 (400 + 10 * d.val + n.val)) = .muli d n ∧
    ∃ t, exec (.muli d n) s = .next t ∧ (t.reg d).toNat = ((s.reg d).toNat * n.val) % 1000 ∧ s.SameButReg d t

/-- R80: MOV copies x[s], raw, and nothing else; with d = s it changes nothing. -/
def Obligations.MovCopiesRaw : Prop :=
  ∀ (d src : RegIndex) (s : State), decode (BitVec.ofNat 10 (500 + 10 * d.val + src.val)) = .mov d src ∧
    (∃ t, exec (.mov d src) s = .next t ∧ t.reg d = s.reg src ∧ s.SameButReg d t) ∧
    exec (.mov d d) s = .next s

/-- R81: ADD writes (x[d] + x[s]) mod 1000, and nothing else. -/
def Obligations.AddAddsModulo : Prop :=
  ∀ (d src : RegIndex) (s : State), decode (BitVec.ofNat 10 (600 + 10 * d.val + src.val)) = .add d src ∧
    ∃ t, exec (.add d src) s = .next t ∧
      (t.reg d).toNat = ((s.reg d).toNat + (s.reg src).toNat) % 1000 ∧ s.SameButReg d t

/-- R82: MUL writes (x[d] * x[s]) mod 1000, and nothing else. -/
def Obligations.MulMultipliesModulo : Prop :=
  ∀ (d src : RegIndex) (s : State), decode (BitVec.ofNat 10 (700 + 10 * d.val + src.val)) = .mul d src ∧
    ∃ t, exec (.mul d src) s = .next t ∧
      (t.reg d).toNat = ((s.reg d).toNat * (s.reg src).toNat) % 1000 ∧ s.SameButReg d t

/-- R83: the ALU's two operations, exact, with results in [0, 999], both commutative, with their zero laws, and
subtraction of k as addition of 1000 - k on a value at most 999. -/
def Obligations.AluIsExactModulo1000 : Prop :=
  (∀ a b : Word, (addmod a b).toNat = (a.toNat + b.toNat) % 1000 ∧ (mulmod a b).toNat = (a.toNat * b.toNat) % 1000 ∧
    (addmod a b).toNat ≤ 999 ∧ (mulmod a b).toNat ≤ 999 ∧ addmod a b = addmod b a ∧ mulmod a b = mulmod b a) ∧
  (∀ a : Word, mulmod a 0#10 = 0#10 ∧ (addmod a 0#10).toNat = a.toNat % 1000) ∧
  ∀ (a : Word) (k : Nat), a.toNat ≤ 999 → k ≤ a.toNat →
    (addmod a (BitVec.ofNat 10 (1000 - k))).toNat = a.toNat - k

/-- R70: every read of an instruction sees the value from before it, so with d = s: ADD doubles, MUL squares, LD reads
the address from the old x[d], ST writes the old x[d] to address x[d], and JNZ tests and jumps to the same value. -/
def Obligations.ReadsComeBeforeTheWrite : Prop :=
  ∀ (d : RegIndex) (s : State),
    (∃ t, exec (.add d d) s = .next t ∧ (t.reg d).toNat = (2 * (s.reg d).toNat) % 1000) ∧
    (∃ t, exec (.mul d d) s = .next t ∧ (t.reg d).toNat = ((s.reg d).toNat ^ 2) % 1000) ∧
    (∀ v, s.mem.cell (s.reg d).toNat = some v → ∃ t, exec (.ld d d) s = .next t ∧ t.reg d = v) ∧
    ((s.reg d).toNat ≤ s.memLen → ∃ t, exec (.st d d) s = .next t ∧ t.mem.cell (s.reg d).toNat = some (s.reg d)) ∧
    ∃ t, exec (.jnz d d) s = .next t ∧ t.pc = if s.reg d = 0#10 then s.pc else zextPc (s.reg d)

/-- The pseudo-instructions (R59): NOP, word 500, changes nothing; ADDI r0, 0 is no NOP, since it reduces r0 mod 1000;
CLR, word 200 + 10d, clears x[d] alone. -/
def Obligations.PseudoInstructions : Prop :=
  (decode 500#10 = .mov 0 0 ∧ ∀ s : State, exec (.mov 0 0) s = .next s) ∧
  (decode 300#10 = .addi 0 0 ∧ ∀ s : State, (s.reg 0).toNat = 1005 → ∃ t, exec (.addi 0 0) s = .next t ∧
    (t.reg 0).toNat = 5) ∧
  ∀ d : RegIndex, decode (BitVec.ofNat 10 (200 + 10 * d.val)) = .seti d 0 ∧
    ∀ s : State, ∃ t, exec (.seti d 0) s = .next t ∧ t.reg d = 0#10 ∧ s.SameButReg d t

/-- The range of the register an instruction has just written (R84): at most 999 after an add or multiply, at most 9
after SETI, the raw source word after MOV and LD. -/
def Obligations.WrittenRegisterRanges : Prop :=
  ∀ (i : Instr) (s t : State), exec i s = .next t →
    (∀ d n, i = .seti d n → (t.reg d).toNat ≤ 9) ∧
    (∀ d n, i = .addi d n ∨ i = .muli d n → (t.reg d).toNat ≤ 999) ∧
    (∀ d src, i = .add d src ∨ i = .mul d src → (t.reg d).toNat ≤ 999) ∧
    (∀ d src, i = .mov d src → t.reg d = s.reg src) ∧
    ∀ d src v, i = .ld d src → s.mem.cell (s.reg src).toNat = some v → t.reg d = v

/-- Where every register and every memory word is at most 999, every step keeps it so: the property holds of every
register when no memory word of 1000 or more is ever loaded (R84, C2). -/
def Obligations.LowWordsAreKept : Prop :=
  ∀ s t : State, s.LowWords → step s = .next t → t.LowWords

/-! ## Loads, stores and the jump -/

/-- R85: LD writes the word at x[s], raw, where that address is below memLen, and otherwise raises OutOfBoundsAccess,
recorded with the word and the fetch address a, and writes no register. -/
def Obligations.LdLoadsOrFaults : Prop :=
  ∀ (d src : RegIndex) (s : State), decode (BitVec.ofNat 10 (800 + 10 * d.val + src.val)) = .ld d src ∧
    ((s.reg src).toNat < s.memLen → ∃ t v, s.mem.cell (s.reg src).toNat = some v ∧ exec (.ld d src) s = .next t ∧
      t.reg d = v ∧ s.SameButReg d t) ∧
    (s.memLen ≤ (s.reg src).toNat → ∀ a : Word, s.pc = zextPc a + 1#11 → exec (.ld d src) s = .next
      { s with
        fault := some { kind := .outOfBoundsAccess, instr := BitVec.ofNat 10 (800 + 10 * d.val + src.val), addr := a }
        halted := true
        phase := .faulted })

/-- R86: ST overwrites the cell x[s] below memLen, extends the memory by exactly one cell at memLen, and raises
OutOfBoundsAccess past it, with memory and memLen unchanged; it writes no register. -/
def Obligations.StStoresOrFaults : Prop :=
  ∀ (d src : RegIndex) (s : State), decode (BitVec.ofNat 10 (900 + 10 * d.val + src.val)) = .st d src ∧
    ((s.reg src).toNat ≤ s.memLen → ∃ t, exec (.st d src) s = .next t ∧
      t.mem.cell (s.reg src).toNat = some (s.reg d) ∧
      (∀ a : Nat, a ≠ (s.reg src).toNat → t.mem.cell a = s.mem.cell a) ∧
      ((s.reg src).toNat < s.memLen → t.memLen = s.memLen) ∧
      ((s.reg src).toNat = s.memLen → t.memLen = s.memLen + 1) ∧
      s.SameRegs t ∧ t.pc = s.pc ∧ s.SameStatus t) ∧
    (s.memLen < (s.reg src).toNat → ∀ a : Word, s.pc = zextPc a + 1#11 → exec (.st d src) s = .next
      { s with
        fault := some { kind := .outOfBoundsAccess, instr := BitVec.ofNat 10 (900 + 10 * d.val + src.val), addr := a }
        halted := true
        phase := .faulted })

/-- R87: JNZ sets the pc to the whole value of x[d] where x[s] is not 0, and otherwise changes nothing; it writes no
register and no cell; with d = s a taken jump never reaches address 0. -/
def Obligations.JnzJumpsOnNonzero : Prop :=
  ∀ (d src : RegIndex) (s : State), decode (BitVec.ofNat 10 (10 * d.val + src.val)) = .jnz d src ∧
    (s.reg src ≠ 0#10 → ∃ p : Pc, p.toNat = (s.reg d).toNat ∧ exec (.jnz d src) s = .next { s with pc := p }) ∧
    (s.reg src = 0#10 → exec (.jnz d src) s = .next s) ∧
    (s.reg d ≠ 0#10 → ∀ t, exec (.jnz d d) s = .next t → t.pc ≠ 0#11)

/-- R33: MemRead raises at or past memLen and otherwise gives the cell's word unchanged. -/
def Obligations.MemReadChecksTheExtent : Prop :=
  ∀ (m : Memory) (a : Word),
    (m.length ≤ a.toNat → memRead m a = none) ∧
    ∀ h : a.toNat < m.length, memRead m a = some (m[a.toNat]'h)

/-- R34: MemWrite overwrites below memLen, extends by exactly one at memLen, where there is always room, and raises past
it. -/
def Obligations.MemWriteOverwritesExtendsOrRaises : Prop :=
  ∀ (m : Memory) (a v : Word),
    (a.toNat < m.length → memWrite Config.storeAtEndGrows m a v = some (m.set a.toNat v)) ∧
    (a.toNat = m.length → memWrite Config.storeAtEndGrows m a v = some (m ++ [v]) ∧ m.length ≤ 1023 ∧
      (m ++ [v]).length = m.length + 1 ∧ (m ++ [v]).length ≤ 1024) ∧
    (m.length < a.toNat → memWrite Config.storeAtEndGrows m a v = none)

/-- A read gives the value of the most recent write to its cell, and a write leaves every other address as it was (R43,
R34), with growth or without. -/
def Obligations.ReadAfterWrite : Prop :=
  ∀ (g : Bool) (m m' : Memory) (a v : Word), memWrite g m a v = some m' →
    memRead m' a = some v ∧ ∀ b : Word, b ≠ a → memRead m' b = memRead m b

/-- A store to the address of the next instruction, over an allocated cell or at memLen, makes the stored word the next
one fetched and executed (R45, R35, R112). -/
def Obligations.StoreReachesTheNextFetch : Prop :=
  ∀ (s : State) (w : Word) (d src : RegIndex), s.Fetches w → decode w = .st d src →
    (s.reg src).toNat = s.pc.toNat + 1 →
    ∃ t, step s = .next t ∧ t.Fetches (s.reg d) ∧ step t = exec (decode (s.reg d)) t.afterFetch

/-- The memory is never shrunk by a step, and a step grows it only by a store to address memLen, by that one cell (R25,
R35). -/
def Obligations.MemoryGrowsOnlyByStoreAtEnd : Prop :=
  ∀ s t : State, step s = .next t →
    t.memLen = s.memLen ∨
    ∃ w d src, s.Fetches w ∧ decode w = .st d src ∧ (s.reg src).toNat = s.memLen ∧ t.mem = s.mem ++ [s.reg d]

/-- The two readings of a store that the source permits differ exactly at the address memLen, where one grows the memory
and the other raises (93_implementation_defined.md item 2; D4); the model's ST is the growing one (R86). -/
def Obligations.StoreReadingsDifferOnlyAtEnd : Prop :=
  ∀ (d src : RegIndex) (s : State), exec (.st d src) s = storeWith true d src s ∧
    ((s.reg src).toNat ≠ s.memLen → storeWith false d src s = storeWith true d src s) ∧
    ((s.reg src).toNat = s.memLen →
      storeWith true d src s = .next { s with mem := s.mem ++ [s.reg d] } ∧
      ∀ a : Word, s.pc = zextPc a + 1#11 → storeWith false d src s = .next
        { s with
          fault := some { kind := .outOfBoundsAccess, instr := BitVec.ofNat 10 (900 + 10 * d.val + src.val), addr := a }
          halted := true
          phase := .faulted })

/-! ## Frames -/

/-- The frame of SETI, ADDI, MULI, MOV, ADD, MUL and LD, the instructions with a destination register d: every other
register, the pc, every address and the count are unchanged, and so is the status unless an LD reads past the extent
(R16, R17, R26). -/
def Obligations.RegisterWriteFrame : Prop :=
  ∀ (i : Instr) (d : RegIndex) (s t : State), instrWrites i = [d] → exec i s = .next t →
    (∀ r : RegIndex, r ≠ d → t.reg r = s.reg r) ∧ t.pc = s.pc ∧ s.SameMem t ∧ t.count = s.count ∧
    ((∀ d' src, i = .ld d' src → (s.reg src).toNat < s.memLen) → s.SameStatus t) ∧
    (∀ src, i = .ld d src → s.memLen ≤ (s.reg src).toNat → s.SameRegs t)

/-- The frame of ST: every register, the pc and the count are unchanged, every address but the effective one reads as
before, and the status is unchanged unless the address is past memLen, where the memory is unchanged too (R17, R86,
R93). -/
def Obligations.StoreFrame : Prop :=
  ∀ (d src : RegIndex) (s t : State), exec (.st d src) s = .next t →
    s.SameRegs t ∧ t.pc = s.pc ∧ t.count = s.count ∧
    (∀ a : Nat, a ≠ (s.effAddr src).toNat → t.mem.cell a = s.mem.cell a) ∧
    ((s.effAddr src).toNat ≤ s.memLen → s.SameStatus t) ∧
    (s.memLen < (s.effAddr src).toNat → s.SameMem t)

/-- The frame of HALT, HALT-ILLEGAL, JNZ and UNDISPATCHED: every register, every address and the count are unchanged;
only JNZ may write the pc; JNZ and UNDISPATCHED leave the status as it was, and HALT the fault record (R17, R19, R26). -/
def Obligations.ControlFrame : Prop :=
  ∀ (i : Instr) (s t : State), instrWrites i = [] → (∀ d src, i ≠ .st d src) → exec i s = .next t →
    s.SameRegs t ∧ s.SameMem t ∧ t.count = s.count ∧
    ((∀ d src, i ≠ .jnz d src) → t.pc = s.pc) ∧
    ((∃ d src, i = .jnz d src) ∨ (∃ p q, i = .undispatched p q) → s.SameStatus t) ∧
    (i = .halt → t.fault = s.fault)

/-- R17: an instruction's outcome depends on no register outside its row of the table, and it writes no register outside
it: changing a register it neither reads nor writes changes nothing but that register in the outcome, and changing one
that it only writes changes nothing at all, unless it faults. -/
def Obligations.RegistersReadAndWritten : Prop :=
  ∀ (i : Instr) (s t : State) (r : RegIndex) (v : Word), exec i s = .next t →
    (r ∉ instrWrites i → t.reg r = s.reg r) ∧
    (r ∉ instrReads i s → r ∉ instrWrites i → exec i (s.setReg r v) = .next (t.setReg r v)) ∧
    (r ∉ instrReads i s → r ∈ instrWrites i → t.phase ≠ .faulted → exec i (s.setReg r v) = .next t)

/-- No instruction reads halted, phase, count or the fault record (R23, R27): with others in their place the same
registers, pc and memory result, and the count stays the given one. -/
def Obligations.StatusIsNotReadByInstructions : Prop :=
  ∀ (i : Instr) (s t : State) (h : Bool) (p : Phase) (n : Nat) (f : Option FaultRecord), exec i s = .next t →
    ∃ t', exec i { s with halted := h, phase := p, count := n, fault := f } = .next t' ∧
      t'.x = t.x ∧ t'.pc = t.pc ∧ t'.mem = t.mem ∧ t'.count = n

/-! ## Faults -/

/-- R91: what raising a fault does, for the fault that rule R89 gives a fetched word: the record of the kind, the raw
word and the fetch address, halted forced to true, phase Faulted, the pc a + 1 and the count with this instruction; no
other change; and the run ends with that count. -/
def Obligations.FaultIsTakenAsDescribed : Prop :=
  ∀ (s : State) (w : Word) (k : FaultKind), s.Fetches w → raisedBy w s = some k → ∃ t : State,
    t = { s with
          pc := s.pc + 1#11
          count := s.count + 1
          fault := some { kind := k, instr := w, addr := s.pc.setWidth 10 }
          halted := true
          phase := .faulted } ∧
    step s = .next t ∧ ∀ fuel : Nat, runSteps (fuel + 1) s = .returned (s.count + 1) t

/-- R89 and R90: a step raises a fault exactly on the table's conditions, of the table's kind and code, recorded with the
raw word and its fetch address, and on nothing else: not in the fetch, and not for a pc at or past memLen. -/
def Obligations.FaultConditionsAreExact : Prop :=
  (∀ (s t : State) (w : Word) (k : FaultKind), s.Fetches w → s.fault = none → step s = .next t →
    (raisedBy w s = some k ↔
      ∃ r, t.fault = some r ∧ r.kind = k ∧ r.instr = w ∧ r.addr.toNat = s.pc.toNat)) ∧
  (∀ (s t : State) (w : Word), s.Fetches w → step s = .next t → (t.phase = .faulted ↔ raisedBy w s ≠ none)) ∧
  (∀ s : State, s.phase = .running → s.halted = false → s.memLen ≤ s.pc.toNat →
    step s = .next { s with phase := .exhausted }) ∧
  FaultKind.invalidInstruction.code = 1#2 ∧ FaultKind.outOfBoundsAccess.code = 2#2 ∧
  ∀ k : FaultKind, k = .invalidInstruction ∨ k = .outOfBoundsAccess

/-- R93: a fault writes no register and no memory cell and leaves memLen unchanged; on top of the fetch's increments it
makes only the changes of rule R91. -/
def Obligations.FaultsArePrecise : Prop :=
  ∀ s t : State, s.Inv → s.phase = .running → step s = .next t → t.phase = .faulted →
    s.SameRegs t ∧ s.SameMem t ∧ t.pc.toNat = s.pc.toNat + 1 ∧ t.count = s.count + 1 ∧ t.halted = true ∧
    ∃ r, t.fault = some r ∧ r.addr.toNat = s.pc.toNat ∧ s.mem.cell s.pc.toNat = some r.instr

/-- What sets halted (R21): in a run, a step makes it true exactly when it executes HALT or raises a fault; and no step
ever clears it. -/
def Obligations.HaltedIsSetByHaltAndFaults : Prop :=
  (∀ s t : State, s.phase = .running → s.halted = false → step s = .next t →
    (t.halted = true ↔ s.Fetches 100#10 ∨ ∃ w k, s.Fetches w ∧ raisedBy w s = some k)) ∧
  ∀ s t : State, s.halted = true → step s = .next t → t.halted = true

/-! ## Invariants -/

/-- Every step keeps the invariant of the core's states: the memory within the address space, the pc at most 1024, and
each phase with its status, a Halted state with HALT behind its pc and a Faulted state with a record that its last
instruction justifies (R18, R22, R25, R63, R68, R91). -/
def Obligations.StepKeepsInv : Prop :=
  ∀ s t : State, s.Inv → step s = .next t → t.Inv

/-- The reset state has the invariant (R29). -/
def Obligations.ResetInv : Prop := State.reset.Inv

/-- Every call of the host that is not refused keeps the invariant (R38, R62, R73, R105). -/
def Obligations.HostCallsKeepInv : Prop :=
  ∀ (c : HostCall) (s t : State), s.Inv → hostCall c s = .next t → t.Inv

/-- Every instruction completes in every state: none stops the model, since taking a fault is a next state (R90, R91,
R95). -/
def Obligations.EveryInstructionCompletes : Prop :=
  ∀ (i : Instr) (s : State), ∃ t, exec i s = .next t

/-- Where the memory fits the address space, every step completes, in every phase (R36, R63, R90). -/
def Obligations.EveryStepCompletes : Prop :=
  ∀ s : State, s.mem.wf = true → ∃ t, step s = .next t
end

