-- ==== Sys2Proof/Laws/Decode.lean ====
section
/-!
SUPPORT. The small lemmas of the decoder's digits, and the rejection of numbers that are no word.
-/

namespace Sys2Proof

@[simp] theorem dig_val (v k : Nat) : (dig v k).val = v / 10 ^ k % 10 := rfl

/-- A digit is the one whose number it is. -/
theorem digit_eq {a : Digit} {n : Nat} (h : a.val = n % 10) : a = Fin.ofNat 10 n := Fin.ext h

/-- The value of three fields with digits in the two low places determines them. -/
theorem joinFields_inj {o o' : Nat} {p q p' q' : Digit} (h : joinFields o p q = joinFields o' p' q') :
    o = o' ∧ p = p' ∧ q = q' := by
  have hp := p.isLt
  have hq := q.isLt
  have hp' := p'.isLt
  have hq' := q'.isLt
  simp only [joinFields] at h
  refine ⟨by omega, Fin.ext (by omega), Fin.ext (by omega)⟩

/-- The decoder rejects a number above 1023, by name. -/
theorem decodeValue_reject {v : Nat} (h : 1023 < v) : decodeValue v = .error (.notAWord v) := by
  simp only [decodeValue, Config.wordMax]
  rw [if_neg (by omega)]

theorem decodeValue_word (w : Word) : decodeValue w.toNat = .ok (decode w) := by
  have := w.isLt
  simp only [decodeValue, Config.wordMax]
  rw [if_pos (by omega)]
  simp

end Sys2Proof
end

