-- ==== Sys2Proof/Laws/State.lean ====
section
/-!
SUPPORT. What each update of the state does to each field, and how registers read after an update: no later proof needs
to unfold an update.
-/

namespace Sys2Proof.Machine

variable (s : State)

/-! ### setReg -/

@[simp] theorem State.setReg_x (i : RegIndex) (v : Word) : (s.setReg i v).x = s.x.set i.val v := rfl
@[simp] theorem State.setReg_pc (i : RegIndex) (v : Word) : (s.setReg i v).pc = s.pc := rfl
@[simp] theorem State.setReg_mem (i : RegIndex) (v : Word) : (s.setReg i v).mem = s.mem := rfl
@[simp] theorem State.setReg_halted (i : RegIndex) (v : Word) : (s.setReg i v).halted = s.halted := rfl
@[simp] theorem State.setReg_phase (i : RegIndex) (v : Word) : (s.setReg i v).phase = s.phase := rfl
@[simp] theorem State.setReg_count (i : RegIndex) (v : Word) : (s.setReg i v).count = s.count := rfl
@[simp] theorem State.setReg_fault (i : RegIndex) (v : Word) : (s.setReg i v).fault = s.fault := rfl
@[simp] theorem State.setReg_memLen (i : RegIndex) (v : Word) : (s.setReg i v).memLen = s.memLen := rfl

/-! ### setPc -/

@[simp] theorem State.setPc_x (p : Pc) : (s.setPc p).x = s.x := rfl
@[simp] theorem State.setPc_pc (p : Pc) : (s.setPc p).pc = p := rfl
@[simp] theorem State.setPc_mem (p : Pc) : (s.setPc p).mem = s.mem := rfl
@[simp] theorem State.setPc_halted (p : Pc) : (s.setPc p).halted = s.halted := rfl
@[simp] theorem State.setPc_phase (p : Pc) : (s.setPc p).phase = s.phase := rfl
@[simp] theorem State.setPc_count (p : Pc) : (s.setPc p).count = s.count := rfl
@[simp] theorem State.setPc_fault (p : Pc) : (s.setPc p).fault = s.fault := rfl
@[simp] theorem State.setPc_reg (p : Pc) (r : RegIndex) : (s.setPc p).reg r = s.reg r := rfl
@[simp] theorem State.setPc_memLen (p : Pc) : (s.setPc p).memLen = s.memLen := rfl

/-! ### setMem -/

@[simp] theorem State.setMem_x (m : Memory) : (s.setMem m).x = s.x := rfl
@[simp] theorem State.setMem_pc (m : Memory) : (s.setMem m).pc = s.pc := rfl
@[simp] theorem State.setMem_mem (m : Memory) : (s.setMem m).mem = m := rfl
@[simp] theorem State.setMem_halted (m : Memory) : (s.setMem m).halted = s.halted := rfl
@[simp] theorem State.setMem_phase (m : Memory) : (s.setMem m).phase = s.phase := rfl
@[simp] theorem State.setMem_count (m : Memory) : (s.setMem m).count = s.count := rfl
@[simp] theorem State.setMem_fault (m : Memory) : (s.setMem m).fault = s.fault := rfl
@[simp] theorem State.setMem_reg (m : Memory) (r : RegIndex) : (s.setMem m).reg r = s.reg r := rfl

/-! ### append -/

@[simp] theorem State.append_x (v : Word) : (s.append v).x = s.x := rfl
@[simp] theorem State.append_pc (v : Word) : (s.append v).pc = s.pc := rfl
@[simp] theorem State.append_mem (v : Word) : (s.append v).mem = s.mem ++ [v] := rfl
@[simp] theorem State.append_halted (v : Word) : (s.append v).halted = s.halted := rfl
@[simp] theorem State.append_phase (v : Word) : (s.append v).phase = s.phase := rfl
@[simp] theorem State.append_count (v : Word) : (s.append v).count = s.count := rfl
@[simp] theorem State.append_fault (v : Word) : (s.append v).fault = s.fault := rfl
@[simp] theorem State.append_reg (v : Word) (r : RegIndex) : (s.append v).reg r = s.reg r := rfl

/-! ### raise -/

@[simp] theorem State.raise_x (k : FaultKind) (i : Instr) : (s.raise k i).x = s.x := rfl
@[simp] theorem State.raise_pc (k : FaultKind) (i : Instr) : (s.raise k i).pc = s.pc := rfl
@[simp] theorem State.raise_mem (k : FaultKind) (i : Instr) : (s.raise k i).mem = s.mem := rfl
@[simp] theorem State.raise_halted (k : FaultKind) (i : Instr) : (s.raise k i).halted = true := rfl
@[simp] theorem State.raise_phase (k : FaultKind) (i : Instr) : (s.raise k i).phase = .faulted := rfl
@[simp] theorem State.raise_count (k : FaultKind) (i : Instr) : (s.raise k i).count = s.count := rfl
@[simp] theorem State.raise_fault (k : FaultKind) (i : Instr) : (s.raise k i).fault = some { kind := k, instr := encode i, addr := s.fetchAddr } := rfl
@[simp] theorem State.raise_reg (k : FaultKind) (i : Instr) (r : RegIndex) : (s.raise k i).reg r = s.reg r := rfl
@[simp] theorem State.raise_memLen (k : FaultKind) (i : Instr) : (s.raise k i).memLen = s.memLen := rfl

/-! ### beginRun -/

@[simp] theorem State.beginRun_x : (s.beginRun).x = s.x := rfl
@[simp] theorem State.beginRun_pc : (s.beginRun).pc = s.pc := rfl
@[simp] theorem State.beginRun_mem : (s.beginRun).mem = s.mem := rfl
@[simp] theorem State.beginRun_halted : (s.beginRun).halted = s.halted := rfl
@[simp] theorem State.beginRun_phase : (s.beginRun).phase = .running := rfl
@[simp] theorem State.beginRun_count : (s.beginRun).count = 0 := rfl
@[simp] theorem State.beginRun_fault : (s.beginRun).fault = s.fault := rfl
@[simp] theorem State.beginRun_reg (r : RegIndex) : (s.beginRun).reg r = s.reg r := rfl
@[simp] theorem State.beginRun_memLen : (s.beginRun).memLen = s.memLen := rfl

/-! ### exhaust -/

@[simp] theorem State.exhaust_x : (s.exhaust).x = s.x := rfl
@[simp] theorem State.exhaust_pc : (s.exhaust).pc = s.pc := rfl
@[simp] theorem State.exhaust_mem : (s.exhaust).mem = s.mem := rfl
@[simp] theorem State.exhaust_halted : (s.exhaust).halted = s.halted := rfl
@[simp] theorem State.exhaust_phase : (s.exhaust).phase = .exhausted := rfl
@[simp] theorem State.exhaust_count : (s.exhaust).count = s.count := rfl
@[simp] theorem State.exhaust_fault : (s.exhaust).fault = s.fault := rfl
@[simp] theorem State.exhaust_reg (r : RegIndex) : (s.exhaust).reg r = s.reg r := rfl
@[simp] theorem State.exhaust_memLen : (s.exhaust).memLen = s.memLen := rfl

/-! ### fetchAdvance -/

@[simp] theorem State.fetchAdvance_x : (s.fetchAdvance).x = s.x := rfl
@[simp] theorem State.fetchAdvance_pc : (s.fetchAdvance).pc = s.pc + 1#11 := rfl
@[simp] theorem State.fetchAdvance_mem : (s.fetchAdvance).mem = s.mem := rfl
@[simp] theorem State.fetchAdvance_halted : (s.fetchAdvance).halted = s.halted := rfl
@[simp] theorem State.fetchAdvance_phase : (s.fetchAdvance).phase = s.phase := rfl
@[simp] theorem State.fetchAdvance_count : (s.fetchAdvance).count = s.count + 1 := rfl
@[simp] theorem State.fetchAdvance_fault : (s.fetchAdvance).fault = s.fault := rfl
@[simp] theorem State.fetchAdvance_reg (r : RegIndex) : (s.fetchAdvance).reg r = s.reg r := rfl
@[simp] theorem State.fetchAdvance_memLen : (s.fetchAdvance).memLen = s.memLen := rfl

/-! ### halt -/

@[simp] theorem State.halt_x : (s.halt).x = s.x := rfl
@[simp] theorem State.halt_pc : (s.halt).pc = s.pc := rfl
@[simp] theorem State.halt_mem : (s.halt).mem = s.mem := rfl
@[simp] theorem State.halt_halted : (s.halt).halted = true := rfl
@[simp] theorem State.halt_phase : (s.halt).phase = .halted := rfl
@[simp] theorem State.halt_count : (s.halt).count = s.count := rfl
@[simp] theorem State.halt_fault : (s.halt).fault = s.fault := rfl
@[simp] theorem State.halt_reg (r : RegIndex) : (s.halt).reg r = s.reg r := rfl
@[simp] theorem State.halt_memLen : (s.halt).memLen = s.memLen := rfl

/-! ### Registers -/

@[simp] theorem State.reg_setReg_same (i : RegIndex) (v : Word) : (s.setReg i v).reg i = v := by
  simp [State.reg, State.setReg]

@[simp] theorem State.reg_setReg_of_ne {i r : RegIndex} (v : Word) (h : r ≠ i) : (s.setReg i v).reg r = s.reg r := by
  have : i.val ≠ r.val := fun e => h (Fin.ext e.symm)
  simp [State.reg, State.setReg, this]

theorem State.reg_setReg (i r : RegIndex) (v : Word) : (s.setReg i v).reg r = if r = i then v else s.reg r := by
  by_cases h : r = i
  · subst h; simp
  · simp [h]

/-- Writing a register with its own value changes nothing. -/
@[simp] theorem State.setReg_reg (i : RegIndex) : s.setReg i (s.reg i) = s := by
  simp [State.reg, State.setReg]

/-- Writes of different registers commute. -/
theorem State.setReg_comm {i r : RegIndex} (h : i ≠ r) (v w : Word) :
    (s.setReg i v).setReg r w = (s.setReg r w).setReg i v := by
  have : i.val ≠ r.val := fun e => h (Fin.ext e)
  simp only [State.setReg]
  rw [Vector.set_comm _ _ this]

/-- The last write of a register counts. -/
@[simp] theorem State.setReg_setReg (i : RegIndex) (v w : Word) : (s.setReg i v).setReg i w = s.setReg i w := by
  simp [State.setReg]

/-- Two register files are equal where every register is. -/
theorem State.x_ext {t : State} (h : ∀ r : RegIndex, t.reg r = s.reg r) : t.x = s.x := by
  apply Vector.ext
  intro i hi
  exact h ⟨i, hi⟩

@[simp] theorem State.reset_reg (r : RegIndex) : State.reset.reg r = 0#10 := by
  simp [State.reg, State.reset]

@[simp] theorem State.reset_memLen : State.reset.memLen = 0 := rfl

end Sys2Proof.Machine
end

