-- ==== Sys2Proof/Laws/Ops.lean ====
section
/-!
SUPPORT. What each shared operation over memory, operands and the ALU can do, said once, and that every memory operation
keeps the memory's canonical form.
-/

namespace Sys2Proof.Machine

/-! ### Words as numbers -/

@[simp] theorem literal_toNat (n : Digit) : (literal n).toNat = n.val := by
  have := n.isLt
  simp only [literal, zextDigit, BitVec.toNat_ofNat]
  omega

@[simp] theorem zextPc_toNat (w : Word) : (zextPc w).toNat = w.toNat := by
  have := w.isLt
  simp only [zextPc, BitVec.toNat_setWidth]
  omega

theorem word_le (w : Word) : w.toNat ≤ 1023 := by
  have := w.isLt
  omega

/-- The pc after a fetch from an address is that address plus one: it does not wrap (R20). -/
theorem pc_succ_toNat {p : Pc} (h : p.toNat < Config.memCap) : (p + 1#11).toNat = p.toNat + 1 := by
  simp only [Config.memCap] at h
  rw [BitVec.toNat_add]
  simp only [BitVec.toNat_ofNat]
  omega

/-- The fetch address that a raise records is the address the instruction was fetched from (R12, R91). -/
theorem fetchAddr_of_pc {s : State} {a : BitVec 10} (h : s.pc = zextPc a + 1#11) : s.fetchAddr = a := by
  have := a.isLt
  apply BitVec.eq_of_toNat_eq
  simp only [State.fetchAddr, h, zextPc, BitVec.toNat_setWidth, BitVec.toNat_sub, BitVec.toNat_add,
    BitVec.toNat_ofNat]
  omega

theorem fetchAddr_fetchAdvance {s : State} (h : s.pc.toNat < Config.memCap) :
    s.fetchAdvance.fetchAddr.toNat = s.pc.toNat := by
  simp only [Config.memCap] at h
  simp only [State.fetchAddr, State.fetchAdvance, BitVec.toNat_setWidth, BitVec.toNat_sub, BitVec.toNat_add,
    BitVec.toNat_ofNat]
  omega

/-! ### The ALU -/

theorem addmod_toNat (a b : Word) : (addmod a b).toNat = (a.toNat + b.toNat) % 1000 := by
  simp only [addmod, Config.modulus, BitVec.toNat_ofNat]
  omega

theorem mulmod_toNat (a b : Word) : (mulmod a b).toNat = (a.toNat * b.toNat) % 1000 := by
  simp only [mulmod, Config.modulus, BitVec.toNat_ofNat]
  omega

/-! ### Memory -/

theorem cell_eq_none_iff (m : Memory) (a : Nat) : m.cell a = none ↔ m.length ≤ a := by
  simp [Memory.cell]

theorem cell_isSome_iff (m : Memory) (a : Nat) : (∃ w, m.cell a = some w) ↔ a < m.length := by
  simp [Memory.cell, List.getElem?_eq_some_iff]

/-- A cell is allocated where it holds a word (R32). -/
theorem lt_of_cell {m : Memory} {a : Nat} {w : Word} (h : m.cell a = some w) : a < m.length :=
  (cell_isSome_iff m a).1 ⟨w, h⟩

/-- MemRead answers the cell's word where there is one, and raises where there is none. -/
theorem memRead_eq_cell (m : Memory) (a : Word) : memRead m a = m.cell a.toNat := by
  simp only [memRead]
  split
  · exact ((cell_eq_none_iff m a.toNat).2 (by assumption)).symm
  · rfl

/-- Everything MemWrite can do: it overwrites, it extends by one where it may, or it raises. -/
theorem memWrite_cases (g : Bool) (m : Memory) (a v : Word) :
    (a.toNat < m.length ∧ memWrite g m a v = some (m.set a.toNat v)) ∨
    (a.toNat = m.length ∧ g = true ∧ memWrite g m a v = some (m ++ [v])) ∨
    ((m.length < a.toNat ∨ (a.toNat = m.length ∧ g = false)) ∧ memWrite g m a v = none) := by
  simp only [memWrite]
  rcases Nat.lt_trichotomy a.toNat m.length with h | h | h
  · exact .inl ⟨h, by simp [h]⟩
  · cases g
    · exact .inr (.inr ⟨.inr ⟨h, rfl⟩, by simp [h]⟩)
    · exact .inr (.inl ⟨h, rfl, by simp [h]⟩)
  · exact .inr (.inr ⟨.inl h, by rw [if_neg (by omega), if_neg (by omega)]⟩)

/-- A write leaves the written word at its address and every other address as it was. -/
theorem memWrite_cell {g : Bool} {m m' : Memory} {a v : Word} (h : memWrite g m a v = some m') (b : Nat) :
    m'.cell b = if b = a.toNat then some v else m.cell b := by
  rcases memWrite_cases g m a v with ⟨hl, he⟩ | ⟨hl, -, he⟩ | ⟨-, he⟩ <;> rw [he] at h
  · cases h
    simp only [Memory.cell, List.getElem?_set]
    by_cases hb : b = a.toNat
    · simp [hb, hl]
    · simp [hb, Ne.symm hb]
  · cases h
    simp only [Memory.cell, hl]
    by_cases hb : b = m.length
    · simp [hb]
    · rcases Nat.lt_or_ge b m.length with hlt | hge
      · simp [hb, List.getElem?_append_left hlt]
      · have h1 : (m ++ [v])[b]? = none := by simp; omega
        have h2 : m[b]? = none := by simp; omega
        simp [hb, h1, h2]
  · cases h

/-- A write grows the memory by at most one cell, and only at its end. -/
theorem memWrite_length {g : Bool} {m m' : Memory} {a v : Word} (h : memWrite g m a v = some m') :
    m'.length = if a.toNat = m.length then m.length + 1 else m.length := by
  rcases memWrite_cases g m a v with ⟨hl, he⟩ | ⟨hl, -, he⟩ | ⟨-, he⟩ <;> rw [he] at h <;> cases h
  · simp [Nat.ne_of_lt hl]
  · simp [hl]

/-! ### The canonical form -/

theorem Memory.wf_iff (m : Memory) : m.wf = true ↔ m.length ≤ 1024 := by
  simp [Memory.wf]

theorem reset_mem_wf : State.reset.mem.wf = true := rfl

/-- A write keeps the form, since an address is at most 1023 (R34). -/
theorem memWrite_wf {g : Bool} {m m' : Memory} {a v : Word} (hm : m.wf = true) (h : memWrite g m a v = some m') :
    m'.wf = true := by
  have hl := memWrite_length h
  have ha := word_le a
  rw [Memory.wf_iff] at hm ⊢
  split at hl <;> omega

/-- An append below the capacity keeps the form (R38). -/
theorem append_wf {s : State} (v : Word) (h : s.memLen < Config.memCap) : (s.append v).mem.wf = true := by
  rw [Memory.wf_iff]
  simp only [State.memLen, Config.memCap] at h
  simp
  omega

/-- Placing a word at an address keeps the form. -/
theorem place_wf {m : Memory} {a : Nat} (w : Word) (hm : m.wf = true) (ha : a < Config.memCap) :
    (m.place a w).wf = true := by
  simp only [Config.memCap] at ha
  rw [Memory.wf_iff] at hm ⊢
  simp only [Memory.place]
  split
  · simpa using hm
  · simp; omega

/-- The placed word is the one the address holds. -/
theorem place_cell (m : Memory) (a : Nat) (w : Word) : (m.place a w).cell a = some w := by
  simp only [Memory.place, Memory.cell]
  split
  · simp [*]
  · rename_i h
    have hl : (m ++ List.replicate (a - m.length) 0#10).length = a := by simp; omega
    rw [List.getElem?_append_right (by omega), hl]
    simp

end Sys2Proof.Machine
end

