-- ==== Sys2Proof/Laws/PerInstr.lean ====
section
/-!
SUPPORT. Statements about every instruction as syntax, one lemma per constructor. The family RowRange: the value an
instruction is encoded as lies in its row's range of words in spec/opcode_table.json (value_min to value_max, R53).
-/

namespace Sys2Proof.Laws.RowRange

/-- The first and the last word of an instruction's row (R53). -/
def rowWords : Instr → Nat × Nat
  | .halt => (100, 100)
  | .haltIllegal _ _ => (101, 199)
  | .seti _ _ => (200, 299)
  | .addi _ _ => (300, 399)
  | .muli _ _ => (400, 499)
  | .mov _ _ => (500, 599)
  | .add _ _ => (600, 699)
  | .mul _ _ => (700, 799)
  | .ld _ _ => (800, 899)
  | .st _ _ => (900, 999)
  | .jnz _ _ => (0, 99)
  | .undispatched _ _ => (1000, 1023)

/-- A well-formed instruction's value is one of its row's words. -/
def Statement (i : Instr) : Prop :=
  i.WellFormed → (rowWords i).1 ≤ encodeValue i ∧ encodeValue i ≤ (rowWords i).2

/-- The two digits of a row of a hundred words stay below the next hundred. -/
theorem joinFields_range (op : Nat) (p q : Digit) : 100 * op ≤ joinFields op p q ∧ joinFields op p q ≤ 100 * op + 99 := by
  have := p.isLt
  have := q.isLt
  simp only [joinFields]
  omega

theorem halt : Statement .halt := fun _ => by decide

theorem haltIllegal (p q : Digit) : Statement (.haltIllegal p q) := by
  intro h
  have hr := joinFields_range 1 p q
  refine ⟨?_, hr.2⟩
  have hne : p.val ≠ 0 ∨ q.val ≠ 0 := by
    simp only [Instr.WellFormed, Instr.wellFormed, Bool.or_eq_true, bne_iff_ne] at h
    exact h.imp (fun h e => h (Fin.ext e)) (fun h e => h (Fin.ext e))
  simp only [rowWords, encodeValue, fieldsOf, joinFields]
  omega

theorem seti (d : RegIndex) (n : Digit) : Statement (.seti d n) := fun _ => joinFields_range 2 d n
theorem addi (d : RegIndex) (n : Digit) : Statement (.addi d n) := fun _ => joinFields_range 3 d n
theorem muli (d : RegIndex) (n : Digit) : Statement (.muli d n) := fun _ => joinFields_range 4 d n
theorem mov (d src : RegIndex) : Statement (.mov d src) := fun _ => joinFields_range 5 d src
theorem add (d src : RegIndex) : Statement (.add d src) := fun _ => joinFields_range 6 d src
theorem mul (d src : RegIndex) : Statement (.mul d src) := fun _ => joinFields_range 7 d src
theorem ld (d src : RegIndex) : Statement (.ld d src) := fun _ => joinFields_range 8 d src
theorem st (d src : RegIndex) : Statement (.st d src) := fun _ => joinFields_range 9 d src
theorem jnz (d src : RegIndex) : Statement (.jnz d src) := fun _ => joinFields_range 0 d src

theorem undispatched (p q : Digit) : Statement (.undispatched p q) := by
  intro h
  have h' : 10 * p.val + q.val ≤ 23 := of_decide_eq_true h
  simp only [rowWords, encodeValue, fieldsOf, joinFields]
  omega

end Sys2Proof.Laws.RowRange
end

