-- ==== Sys2Proof/Laws/Step.lean ====
section
/-!
SUPPORT. What the head of a step can find and what an instruction's execution can answer, said once.
-/

namespace Sys2Proof.Machine

/-- Everything the head of a step can find. -/
theorem stepHead_cases (s : State) :
    (s.phase = .ready ∧ stepHead s = .noFetch s.beginRun) ∨
    (s.phase = .running ∧ s.halted = true ∧ stepHead s = .noFetch s) ∨
    (s.phase = .running ∧ s.halted = false ∧ s.memLen ≤ s.pc.toNat ∧ stepHead s = .noFetch s.exhaust) ∨
    (∃ w, s.Fetches w ∧ stepHead s = .fetched w s.fetchAdvance) ∨
    (s.phase = .running ∧ s.halted = false ∧ Config.memCap ≤ s.pc.toNat ∧ s.pc.toNat < s.memLen ∧
      stepHead s = .noCell) ∨
    (s.phase.terminal = true ∧ stepHead s = .noFetch s) := by
  cases hp : s.phase with
  | ready => exact .inl ⟨rfl, by simp only [stepHead, hp]⟩
  | running =>
    cases hh : s.halted with
    | true => exact .inr (.inl ⟨rfl, rfl, by simp [stepHead, hp, hh]⟩)
    | false =>
      cases hc : s.mem.cell s.pc.toNat with
      | none =>
        exact .inr (.inr (.inl ⟨rfl, rfl, (cell_eq_none_iff _ _).1 hc, by simp [stepHead, fetch, hp, hh, hc]⟩))
      | some w =>
        by_cases hl : s.pc.toNat < Config.memCap
        · exact .inr (.inr (.inr (.inl ⟨w, ⟨hp, hh, hl, hc⟩, by simp [stepHead, fetch, hp, hh, hc, hl]⟩)))
        · exact .inr (.inr (.inr (.inr (.inl
            ⟨rfl, rfl, by omega, lt_of_cell hc, by simp [stepHead, fetch, hp, hh, hc, hl]⟩))))
  | halted => exact .inr (.inr (.inr (.inr (.inr ⟨rfl, by simp only [stepHead, hp]⟩))))
  | faulted => exact .inr (.inr (.inr (.inr (.inr ⟨rfl, by simp only [stepHead, hp]⟩))))
  | exhausted => exact .inr (.inr (.inr (.inr (.inr ⟨rfl, by simp only [stepHead, hp]⟩))))

/-- Where the next step fetches w, its head is that fetch. -/
theorem stepHead_of_fetches {s : State} {w : Word} (h : s.Fetches w) : stepHead s = .fetched w s.fetchAdvance := by
  obtain ⟨hp, hh, hl, hc⟩ := h
  simp [stepHead, fetch, hp, hh, hl, hc]

/-- Under the capacity bound no fetch is past the address space. -/
theorem stepHead_ne_noCell {s : State} (h : s.mem.wf = true) : stepHead s ≠ .noCell := by
  rw [Memory.wf_iff] at h
  rcases stepHead_cases s with h' | h' | h' | ⟨w, -, he⟩ | ⟨-, -, hc, hl, -⟩ | h'
  · simp [h'.2]
  · simp [h'.2.2]
  · simp [h'.2.2.2]
  · simp [he]
  · simp only [State.memLen, Config.memCap] at hc hl
    omega
  · simp [h'.2]

/-- Opcode 1 raises on a nonzero operand and halts otherwise. -/
theorem opcodeOne_cases (p q : Digit) (i : Instr) (s : State) :
    ((p ≠ 0 ∨ q ≠ 0) ∧ opcodeOne p q i s = .next (s.raise .invalidInstruction i)) ∨
    (p = 0 ∧ q = 0 ∧ opcodeOne p q i s = .next s.halt) := by
  simp only [opcodeOne]
  by_cases h : p ≠ 0 ∨ q ≠ 0
  · exact .inl ⟨h, by simp only [if_pos h]⟩
  · exact .inr ⟨by tauto, by tauto, by simp only [if_neg h]⟩

/-- A load writes the word it reads, or raises. -/
theorem execLd_cases (d src : RegIndex) (s : State) :
    (∃ v, s.mem.cell (s.reg src).toNat = some v ∧ execLd d src s = .next (s.setReg d v)) ∨
    (s.memLen ≤ (s.reg src).toNat ∧ execLd d src s = .next (s.raise .outOfBoundsAccess (.ld d src))) := by
  simp only [execLd, memRead_eq_cell, State.effAddr, State.portB]
  cases hc : s.mem.cell (s.reg src).toNat with
  | none => exact .inr ⟨(cell_eq_none_iff _ _).1 hc, rfl⟩
  | some v => exact .inl ⟨v, rfl, rfl⟩

/-- A store writes its word at or below memLen, or raises past it. -/
theorem execSt_cases (d src : RegIndex) (s : State) :
    (∃ m, (s.reg src).toNat ≤ s.memLen ∧ memWrite true s.mem (s.reg src) (s.reg d) = some m ∧
      execSt d src s = .next (s.setMem m)) ∨
    (s.memLen < (s.reg src).toNat ∧ execSt d src s = .next (s.raise .outOfBoundsAccess (.st d src))) := by
  simp only [execSt, storeWith, Config.storeAtEndGrows, State.effAddr, State.portB, State.portA, State.memLen]
  rcases memWrite_cases true s.mem (s.reg src) (s.reg d) with ⟨hl, he⟩ | ⟨hl, -, he⟩ | ⟨hl, he⟩
  · exact .inl ⟨_, by omega, he, by rw [he]⟩
  · exact .inl ⟨_, by omega, he, by rw [he]⟩
  · exact .inr ⟨by simpa using hl, by rw [he]⟩

/-- A jump writes the pc, or does nothing. -/
theorem execJnz_cases (d src : RegIndex) (s : State) :
    (s.reg src ≠ 0#10 ∧ execJnz d src s = .next (s.setPc (zextPc (s.reg d)))) ∨
    (s.reg src = 0#10 ∧ execJnz d src s = .next s) := by
  simp only [execJnz, State.portB, State.jumpTarget, State.portA]
  by_cases h : s.reg src = 0#10
  · exact .inr ⟨h, by simp [h]⟩
  · exact .inl ⟨h, by simp [h]⟩

/-- Everything an instruction's execution can answer, by instruction: HALT halts; opcode 1 with a nonzero operand
raises; an instruction with a destination writes it (LD the word it read); LD and ST raise out of bounds; ST writes
the memory; JNZ writes the pc or does nothing; and an undispatched word does nothing. -/
theorem exec_next_cases {i : Instr} {s t : State} (h : exec i s = .next t) :
    (i = .halt ∧ t = s.halt) ∨
    (∃ p q, i = .haltIllegal p q ∧
      ((p = 0 ∧ q = 0 ∧ t = s.halt) ∨ ((p ≠ 0 ∨ q ≠ 0) ∧ t = s.raise .invalidInstruction i))) ∨
    (∃ d v, instrWrites i = [d] ∧ t = s.setReg d v ∧
      ∀ d' src, i = .ld d' src → s.mem.cell (s.reg src).toNat = some v) ∨
    (∃ d src, i = .ld d src ∧ s.memLen ≤ (s.reg src).toNat ∧ t = s.raise .outOfBoundsAccess i) ∨
    (∃ d src m, i = .st d src ∧ (s.reg src).toNat ≤ s.memLen ∧
      memWrite true s.mem (s.reg src) (s.reg d) = some m ∧ t = s.setMem m) ∨
    (∃ d src, i = .st d src ∧ s.memLen < (s.reg src).toNat ∧ t = s.raise .outOfBoundsAccess i) ∨
    (∃ d src, i = .jnz d src ∧
      ((s.reg src ≠ 0#10 ∧ t = s.setPc (zextPc (s.reg d))) ∨ (s.reg src = 0#10 ∧ t = s))) ∨
    (∃ p q, i = .undispatched p q ∧ t = s) := by
  cases i with
  | halt => cases h; exact .inl ⟨rfl, rfl⟩
  | haltIllegal p q =>
    refine .inr (.inl ⟨p, q, rfl, ?_⟩)
    simp only [exec, execHaltIllegal] at h
    rcases opcodeOne_cases p q (.haltIllegal p q) s with ⟨h1, he⟩ | ⟨h1, h2, he⟩ <;> rw [he] at h <;> cases h
    · exact .inr ⟨h1, rfl⟩
    · exact .inl ⟨h1, h2, rfl⟩
  | seti d n => cases h; exact .inr (.inr (.inl ⟨d, _, rfl, rfl, by simp⟩))
  | addi d n => cases h; exact .inr (.inr (.inl ⟨d, _, rfl, rfl, by simp⟩))
  | muli d n => cases h; exact .inr (.inr (.inl ⟨d, _, rfl, rfl, by simp⟩))
  | mov d src => cases h; exact .inr (.inr (.inl ⟨d, _, rfl, rfl, by simp⟩))
  | add d src => cases h; exact .inr (.inr (.inl ⟨d, _, rfl, rfl, by simp⟩))
  | mul d src => cases h; exact .inr (.inr (.inl ⟨d, _, rfl, rfl, by simp⟩))
  | ld d src =>
    simp only [exec] at h
    rcases execLd_cases d src s with ⟨v, hv, he⟩ | ⟨hl, he⟩ <;> rw [he] at h <;> cases h
    · refine .inr (.inr (.inl ⟨d, v, rfl, rfl, ?_⟩))
      rintro _ _ e
      cases e
      exact hv
    · exact .inr (.inr (.inr (.inl ⟨d, src, rfl, hl, rfl⟩)))
  | st d src =>
    simp only [exec] at h
    rcases execSt_cases d src s with ⟨m, hl, hm, he⟩ | ⟨hl, he⟩ <;> rw [he] at h <;> cases h
    · exact .inr (.inr (.inr (.inr (.inl ⟨d, src, m, rfl, hl, hm, rfl⟩))))
    · exact .inr (.inr (.inr (.inr (.inr (.inl ⟨d, src, rfl, hl, rfl⟩)))))
  | jnz d src =>
    simp only [exec] at h
    refine .inr (.inr (.inr (.inr (.inr (.inr (.inl ⟨d, src, rfl, ?_⟩))))))
    rcases execJnz_cases d src s with ⟨hz, he⟩ | ⟨hz, he⟩ <;> rw [he] at h <;> cases h
    · exact .inl ⟨hz, rfl⟩
    · exact .inr ⟨hz, rfl⟩
  | undispatched p q => cases h; exact .inr (.inr (.inr (.inr (.inr (.inr (.inr ⟨p, q, rfl, rfl⟩))))))

/-- Everything a step can answer with a next state. -/
theorem step_next_cases {s t : State} (h : step s = .next t) :
    (s.phase = .ready ∧ t = s.beginRun) ∨
    (s.phase = .running ∧ s.halted = true ∧ t = s) ∨
    (s.phase = .running ∧ s.halted = false ∧ s.memLen ≤ s.pc.toNat ∧ t = s.exhaust) ∨
    (∃ w, s.Fetches w ∧ exec (decode w) s.fetchAdvance = .next t) ∨
    (s.phase.terminal = true ∧ t = s) := by
  simp only [step] at h
  rcases stepHead_cases s with ⟨h1, he⟩ | ⟨h1, h2, he⟩ | ⟨h1, h2, h3, he⟩ | ⟨w, hf, he⟩ | ⟨-, -, -, -, he⟩ | ⟨h1, he⟩ <;>
    rw [he] at h <;> simp only [Host.Outcome.next.injEq, reduceCtorEq] at h
  · exact .inl ⟨h1, h.symm⟩
  · exact .inr (.inl ⟨h1, h2, h.symm⟩)
  · exact .inr (.inr (.inl ⟨h1, h2, h3, h.symm⟩))
  · exact .inr (.inr (.inr (.inl ⟨w, hf, h⟩)))
  · exact .inr (.inr (.inr (.inr ⟨h1, h.symm⟩)))

end Sys2Proof.Machine
end

