-- ==== Sys2Proof/Tests/Slice0.lean ====
section
/-!
SUPPORT. The model's own tests: each expected result is the spec's own (the vectors of 95_test_vectors.md, the corner
cases of files 41 to 45), and for each statement of the obligations with hypotheses a witness that meets them, one for
each of its clauses.
-/

namespace Sys2Proof.Tests

open Sys2Proof.Machine

/-! ## Helpers -/

/-- A running machine with this memory and pc, and these registers over zeros. -/
def machineAt (mem : Memory) (pc : Pc) (regs : List (RegIndex × Word)) : State :=
  regs.foldl (fun s r => s.setReg r.1 r.2) { State.reset with mem := mem, pc := pc, phase := .running }

/-- A part of the next state, where there is one. -/
def look {α : Type} (o : Host.Outcome State Fault Refusal) (f : State → α) : Option α :=
  match o with
  | .next t => some (f t)
  | .fault _ => none
  | .refused _ => none

/-- The fault record of kind k for the word w at address a. -/
def record (k : FaultKind) (w : Word) (a : BitVec 10) : Option FaultRecord := some { kind := k, instr := w, addr := a }

/-! ## Well-formed terms -/

theorem test_wellFormed_refuses_illegal_halt_without_operand : ¬ (Instr.haltIllegal 0 0).WellFormed := by decide
theorem test_wellFormed_refuses_undispatched_above_1023 : ¬ (Instr.undispatched 2 4).WellFormed := by decide

/-! ## Decoding: words written out in bits from their decimal values (R48, R53) -/

theorem test_decode_halt : decode 0b0001100100#10 = .halt := by decide
theorem test_decode_haltIllegal : decode 0b0001101111#10 = .haltIllegal 1 1 := by decide
theorem test_decode_seti : decode 0b0011010100#10 = .seti 1 2 := by decide
theorem test_decode_addi : decode 0b0110000111#10 = .addi 9 1 := by decide
theorem test_decode_muli : decode 0b0110011100#10 = .muli 1 2 := by decide
theorem test_decode_mov : decode 0b0111111011#10 = .mov 0 7 := by decide
theorem test_decode_add : decode 0b1001100100#10 = .add 1 2 := by decide
theorem test_decode_mul : decode 0b1011011110#10 = .mul 3 4 := by decide
theorem test_decode_ld : decode 0b1100100001#10 = .ld 0 1 := by decide
theorem test_decode_st : decode 0b1110010011#10 = .st 1 5 := by decide
theorem test_decode_jnz : decode 0b0000101001#10 = .jnz 4 1 := by decide
theorem test_decode_undispatched : decode 0b1111111111#10 = .undispatched 2 3 := by decide

/-- The first and last words of each row (R53). -/
theorem test_decode_row_boundaries :
    [0#10, 99, 101, 199, 200, 299, 300, 399, 400, 499, 500, 599].map decode =
      [.jnz 0 0, .jnz 9 9, .haltIllegal 0 1, .haltIllegal 9 9, .seti 0 0, .seti 9 9, .addi 0 0, .addi 9 9, .muli 0 0,
        .muli 9 9, .mov 0 0, .mov 9 9] ∧
    [600#10, 699, 700, 799, 800, 899, 900, 999, 1000, 1023].map decode =
      [.add 0 0, .add 9 9, .mul 0 0, .mul 9 9, .ld 0 0, .ld 9 9, .st 0 0, .st 9 9, .undispatched 0 0,
        .undispatched 2 3] := by decide

theorem test_decodeTableWord : decodeTableWord 16 212 = some (.seti 1 2) ∧ decodeTableWord 16 1024 = none := by decide

/-! ## Instructions (95_test_vectors.md section 2.2) -/

/-- V-H1. -/
theorem test_halt : look (step (machineAt [100] 0 [])) (fun t => (t.halted, t.phase, t.fault, t.pc, t.count)) =
    some (true, .halted, none, 1, 1) := by decide
/-- S4 and V-H4. -/
theorem test_haltIllegal_111 : look (step (machineAt [111] 0 [])) (fun t => (t.halted, t.phase, t.fault, t.pc)) =
    some (true, .faulted, record .invalidInstruction 111 0, 1) := by decide
theorem test_haltIllegal_199 : look (step (machineAt [199] 0 [])) State.fault =
    some (record .invalidInstruction 199 0) := by decide
/-- V-A2. -/
theorem test_seti_discards_raw_value : look (step (machineAt [209] 0 [(0, 1005)])) (State.reg · 0) = some 9 := by decide
/-- V-A5 and V-A7. -/
theorem test_addi_wraps : look (step (machineAt [391] 0 [(9, 999)])) (State.reg · 9) = some 0 := by decide
theorem test_addi_zero_reduces : look (step (machineAt [300] 0 [(0, 1023)])) (State.reg · 0) = some 23 := by decide
/-- V-A10 and V-A13. -/
theorem test_muli_wraps : look (step (machineAt [499] 0 [(9, 999)])) (State.reg · 9) = some 991 := by decide
theorem test_muli_one_reduces : look (step (machineAt [401] 0 [(0, 1023)])) (State.reg · 0) = some 23 := by decide
/-- V-A14 and V-A15. -/
theorem test_mov_copies : look (step (machineAt [521] 0 [(1, 8)])) (fun t => (t.reg 1, t.reg 2)) = some (8, 8) := by decide
theorem test_mov_is_raw : look (step (machineAt [500] 0 [(0, 1005)])) (State.reg · 0) = some 1005 := by decide
/-- V-A18 and V-A20. -/
theorem test_add_doubles : look (step (machineAt [666] 0 [(6, 600)])) (State.reg · 6) = some 200 := by decide
theorem test_add_largest : look (step (machineAt [601] 0 [(0, 1023), (1, 1023)])) (fun t => (t.reg 0, t.reg 1)) =
    some (46, 1023) := by decide
/-- V-A25 and V-A26. -/
theorem test_mul_largest : look (step (machineAt [711] 0 [(1, 1023)])) (State.reg · 1) = some 529 := by decide
theorem test_mul : look (step (machineAt [723] 0 [(2, 37), (3, 27)])) (fun t => (t.reg 2, t.reg 3)) =
    some (999, 27) := by decide
/-- V-LD2 and V-LD5. -/
theorem test_ld_past_extent : look (step (machineAt [812, 0, 77] 0 [(2, 3)])) (fun t => (t.fault, t.reg 1, t.pc)) =
    some (record .outOfBoundsAccess 812 0, 0, 1) := by decide
theorem test_ld_is_raw : look (step (machineAt [821, 1005] 0 [(1, 1)])) (State.reg · 2) = some 1005 := by decide
/-- V-ST2 and V-ST3. -/
theorem test_st_grows : look (step (machineAt [915, 0, 0] 0 [(1, 42), (5, 3)])) (fun t => (t.mem, t.fault)) =
    some ([915, 0, 0, 42], none) := by decide
theorem test_st_past_end : look (step (machineAt [915, 0, 0] 0 [(1, 42), (5, 4)])) (fun t => (t.mem, t.fault)) =
    some ([915, 0, 0], record .outOfBoundsAccess 915 0) := by decide
/-- V-J7 and V-J4. -/
theorem test_jnz_raw_value_is_nonzero : look (step (machineAt [19] 0 [(1, 2), (9, 1005)])) State.pc = some 2 := by decide
theorem test_jnz_not_taken : look (step (machineAt [0, 0, 0, 22] 3 [(2, 0)])) State.pc = some 4 := by decide
/-- V-U3, its first step. -/
theorem test_undispatched : step (machineAt [1000] 0 [(3, 7)]) =
    .next { machineAt [1000] 0 [(3, 7)] with pc := 1, count := 1 } := rfl

/-! ## Steps, runs and the host (95_test_vectors.md sections 1 and 2.3) -/

/-- S6. -/
theorem test_run_on_empty_memory : run 1 State.reset = .returned 0 { State.reset with phase := .exhausted } := rfl
/-- V-E2, its second call of run(). -/
theorem test_run_after_halt (s : State) (h : s.phase = .halted) : run 5 s = .returned 0 s := by
  simp only [run, h]
/-- V-HOST1 and V-HOST2. -/
theorem test_append_refuses : hostAppend 1024 State.reset = .refused .appendValueOutOfRange ∧
    hostAppend (-1) State.reset = .refused .appendValueOutOfRange := ⟨rfl, rfl⟩
/-- V-HOST4, its refusal. -/
theorem test_append_after_run : hostAppend 100 { State.reset with phase := .exhausted } = .refused .appendOutsideReady :=
  rfl
/-- S5: the host loads one word and calls run(). -/
theorem test_append_then_run : ∃ s t, hostAppendAll [100] State.reset = .next s ∧ run 1 s = .returned 1 t ∧
    t.hostView = { count := 1, phase := .halted, report := none } := ⟨_, _, rfl, rfl, rfl⟩
/-- The word a table row gives runs as the first instruction after reset. -/
theorem test_withFetchWord : look (step (State.reset.withFetchWord 16 212)) (fun t => (t.reg 1, t.pc, t.phase)) =
    some (2, 1, .running) := by decide

/-! ## Witnesses: states and operands that meet each statement's hypotheses -/

theorem witness_OpcodeMapRows : ∀ w ∈ [(100#10), 101, 199, 200, 299, 900, 999, 1000, 1023], 100 ≤ w.toNat := by decide

theorem witness_DecodeInvertsEncode :
    (Instr.haltIllegal 0 1).WellFormed ∧ (Instr.undispatched 2 3).WellFormed ∧ (Instr.jnz 9 9).WellFormed := by decide

theorem witness_FieldsRoundTrip : joinFields 9 9 9 = joinFields 9 9 9 ∧ joinFields 9 9 9 = 999 ∧
    joinFields 0 0 0 = 0 ∧ (splitFields 999).1 = 9 ∧ (splitFields 1000).1 = 10 ∧ (splitFields 1023).1 = 10 := by decide

/-! A state that fetches (StepRunsDecodedInstruction, CountCountsFetches, PcAdvancesUnlessJumping and the other
statements about a fetch), at the first address and at the last. -/

theorem witness_Fetches_first : (machineAt [212] 0 []).Fetches 212 := by decide

/-- A memory of n zero words. -/
def zeros (n : Nat) : Memory := List.replicate n 0#10
theorem zeros_length (n : Nat) : (zeros n).length = n := List.length_replicate

/-- The last address of the address space is fetched from. -/
theorem witness_Fetches_last : (machineAt (zeros 1023 ++ [212]) 1023 []).Fetches 212 := by
  refine ⟨rfl, rfl, (by decide : (1023#11).toNat < 1024), ?_⟩
  have h : (zeros 1023 ++ [212])[(zeros 1023).length]? = some 212 := List.getElem?_concat_length
  rw [zeros_length] at h
  exact h

theorem witness_EngineStepCases_halted : ∃ s : State, s.mem.wf = true ∧ s.phase = .running ∧ s.halted = true :=
  ⟨{ machineAt [100] 0 [] with halted := true }, by decide⟩
theorem witness_EngineStepCases_exhausts : (machineAt [100] 1 []).mem.wf = true ∧
    (machineAt [100] 1 []).phase = .running ∧ (machineAt [100] 1 []).halted = false ∧
    (machineAt [100] 1 []).memLen ≤ (machineAt [100] 1 []).pc.toNat := by decide
theorem witness_EngineStepCases_fetches : (machineAt [100, 200] 1 []).mem.wf = true ∧
    (machineAt [100, 200] 1 []).pc.toNat < (machineAt [100, 200] 1 []).memLen := by decide

/-- A state in each phase that the core's runs reach. -/
def halted : State := { machineAt [100] 1 [] with halted := true, phase := .halted, count := 1 }
def faulted : State :=
  { machineAt [111] 1 [] with halted := true, phase := .faulted, count := 1, fault := record .invalidInstruction 111 0 }
def exhausted : State := { machineAt [5] 1 [] with phase := .exhausted, count := 1 }

/-! Each phase's clause of the invariant is met (TerminalPhasesAreFixed, TerminalPhaseIsDerivable, StepKeepsInv,
HostCallsKeepInv). -/

theorem witness_Inv_ready : State.reset.Inv := by decide
theorem witness_Inv_running : (machineAt [100] 0 []).Inv := by decide
theorem witness_Inv_halted : halted.Inv ∧ halted.phase.terminal = true := by decide
theorem witness_Inv_faulted : faulted.Inv ∧ faulted.phase.terminal = true := by decide
theorem witness_Inv_exhausted : exhausted.Inv ∧ exhausted.phase.terminal = true := by decide

theorem witness_StepKeepsInv : ∃ t, (machineAt [801, 5] 0 []).Inv ∧ step (machineAt [801, 5] 0 []) = .next t :=
  ⟨_, by decide, rfl⟩
theorem witness_HostCallsKeepInv : (∃ t, hostCall .reset faulted = .next t) ∧
    (∃ t, hostCall (.appendMemory 1023) State.reset = .next t) ∧ (∃ t, hostCall .run State.reset = .next t) ∧
    ∃ t, hostCall .run exhausted = .next t := ⟨⟨_, rfl⟩, ⟨_, rfl⟩, ⟨_, rfl⟩, ⟨_, rfl⟩⟩

theorem witness_RunningIsLeftThreeWays_halted : ∃ t, (machineAt [100] 0 []).Inv ∧
    step (machineAt [100] 0 []) = .next t ∧ t.phase = .halted := ⟨_, by decide, rfl, rfl⟩
theorem witness_RunningIsLeftThreeWays_faulted : ∃ t, (machineAt [801] 0 [(1, 1)]).Inv ∧
    step (machineAt [801] 0 [(1, 1)]) = .next t ∧ t.phase = .faulted := ⟨_, by decide, rfl, rfl⟩
theorem witness_RunningIsLeftThreeWays_exhausted : ∃ t, (machineAt [100] 1 []).Inv ∧
    step (machineAt [100] 1 []) = .next t ∧ t.phase = .exhausted := ⟨_, by decide, rfl, rfl⟩

theorem witness_ReadyStepStartsRun : State.reset.phase = .ready ∧ step State.reset = hostRun State.reset := ⟨rfl, rfl⟩
theorem witness_PhaseMovesAlongEdges : ∃ t, step State.reset = .next t ∧ t.phase = .running := ⟨_, rfl, rfl⟩
theorem witness_TerminalPhasesAreFixed : halted.phase = .halted ∧ faulted.phase = .faulted ∧
    exhausted.phase = .exhausted := by decide

/-- RunReturnsFetchCount and RunResultIsStable. -/
theorem witness_RunReturnsFetchCount : ∃ s t, s.phase = .ready ∧ run 1 s = .returned 1 t ∧ t.phase = .halted :=
  ⟨{ State.reset with mem := [100] }, _, rfl, rfl, rfl⟩
theorem witness_RunReturnsFetchCount_empty : State.reset.phase = .ready ∧ State.reset.halted = false ∧
    State.reset.memLen = 0 := by decide

theorem witness_CountCountsFetches_no_fetch : ∃ t, (machineAt [5] 1 []).phase = .running ∧
    (∀ w, ¬ (machineAt [5] 1 []).Fetches w) ∧ step (machineAt [5] 1 []) = .next t :=
  ⟨_, rfl, fun w h => absurd (lt_of_cell h.2.2.2) (by decide), rfl⟩

theorem witness_PcAdvancesUnlessJumping : ∃ t u, step (machineAt [41] 0 [(4, 9), (1, 1)]) = .next t ∧
    step (machineAt [41] 0 [(4, 9)]) = .next u ∧ t.pc = 9 ∧ u.pc = 1 ∧ decode 41 = .jnz 4 1 :=
  ⟨_, _, rfl, rfl, by decide, by decide, by decide⟩

theorem witness_PlacedWordRunsNext : decodeTableWord 16 1023 = some (.undispatched 2 3) ∧
    decodeTableWord 8 100 = some .halt ∧ (machineAt [] 1023 []).pc.toNat < 1024 := by decide

theorem witness_HostResetRestores : faulted.phase ≠ .running ∧ (machineAt [] 0 []).phase = .running := by decide

/-- The last accepted append, at both ends of the value range. -/
theorem witness_AppendMemoryContract : (∃ t, hostAppend 1023 { State.reset with mem := zeros 1023 } = .next t) ∧
    ∃ t, hostAppend 0 { State.reset with mem := zeros 1023 } = .next t := by
  simp [hostAppend, State.reset, State.memLen, zeros_length]
/-- One word more is refused (V-HOST3). -/
theorem witness_AppendMemoryContract_full :
    hostAppend 100 { State.reset with mem := zeros 1024 } = .refused .appendMemoryFull := by
  simp [hostAppend, State.reset, State.memLen, zeros_length]

/-- The pc of an executing instruction, for the first and the last fetch address (OpcodeOneHaltsOrFaults,
LdLoadsOrFaults, StStoresOrFaults, StoreReadingsDifferOnlyAtEnd). -/
theorem witness_pc_of_fetch_address : (machineAt [] 1 []).pc = zextPc 0 + 1#11 ∧
    (machineAt [] 1024 []).pc = zextPc 1023 + 1#11 := by decide

theorem witness_OpcodeOneHaltsOrFaults : ∃ t, (Instr.haltIllegal 9 0).WellFormed ∧ Instr.haltIllegal 9 0 ≠ .halt ∧
    exec (.haltIllegal 9 0) (machineAt [] 1 []) = .next t ∧ (machineAt [] 1 []).phase ≠ .halted :=
  ⟨_, by decide, by decide, rfl, by decide⟩

/-- A word outside 101 to 199 whose step records a fault, of the other kind. -/
theorem witness_IllegalWordsFault : ∃ t r, (machineAt [801] 0 [(1, 1)]).Fetches 801 ∧
    (machineAt [801] 0 [(1, 1)]).fault = none ∧ step (machineAt [801] 0 [(1, 1)]) = .next t ∧ t.fault = some r ∧
    r.kind ≠ .invalidInstruction := ⟨_, _, by decide, rfl, rfl, rfl, by decide⟩
theorem witness_IllegalWordsFault_rows : (machineAt [101] 0 []).Fetches 101 ∧ (machineAt [199] 0 []).Fetches 199 := by
  decide
theorem witness_UndispatchedWordsDoNothing : (machineAt [1000] 0 []).Fetches 1000 ∧
    (machineAt [1023] 0 []).Fetches 1023 := by decide

theorem witness_AluIsExactModulo1000 : (addmod 999 (BitVec.ofNat 10 (1000 - 999))).toNat = 0 ∧
    (addmod 999 (BitVec.ofNat 10 (1000 - 0))).toNat = 999 := by decide

theorem witness_PseudoInstructions : ((machineAt [300] 0 [(0, 1005)]).reg 0).toNat = 1005 := by decide

theorem witness_WrittenRegisterRanges : ∃ t v, exec (.ld 1 2) (machineAt [0, 1023] 0 [(2, 1)]) = .next t ∧
    (machineAt [0, 1023] 0 [(2, 1)]).mem.cell ((machineAt [0, 1023] 0 [(2, 1)]).reg 2).toNat = some v ∧
    v.toNat = 1023 ∧ (∀ i ∈ [Instr.seti 0 9, .addi 0 9, .muli 0 9, .mov 0 1, .add 0 1, .mul 0 1],
      ∃ u, exec i (machineAt [] 0 []) = .next u) :=
  ⟨_, 1023, rfl, by decide, rfl, by simp [exec, execSeti, execAddi, execMuli, execMov, execAdd, execMul]⟩

theorem witness_LowWordsAreKept : ∃ t, (machineAt [391] 0 [(9, 999)]).LowWords ∧
    step (machineAt [391] 0 [(9, 999)]) = .next t := by
  refine ⟨_, ⟨by decide, fun a w h => ?_⟩, rfl⟩
  have ha : a = 0 := Nat.lt_one_iff.1 (lt_of_cell h)
  subst ha
  cases h
  decide

/-- LD at memLen - 1 and at memLen; ST at memLen - 1, memLen and memLen + 1 (LdLoadsOrFaults, StStoresOrFaults,
ReadsComeBeforeTheWrite, RegisterWriteFrame, StoreFrame, StoreReadingsDifferOnlyAtEnd). -/
theorem witness_extent_boundaries : ((machineAt [0, 0] 1 [(2, 1)]).reg 2).toNat + 1 = (machineAt [0, 0] 1 [(2, 1)]).memLen ∧
    ((machineAt [0, 0] 1 [(2, 2)]).reg 2).toNat = (machineAt [0, 0] 1 [(2, 2)]).memLen ∧
    ((machineAt [0, 0] 1 [(2, 3)]).reg 2).toNat = (machineAt [0, 0] 1 [(2, 3)]).memLen + 1 := by decide

theorem witness_JnzJumpsOnNonzero : (machineAt [] 0 [(4, 1)]).reg 4 ≠ 0#10 ∧ (machineAt [] 0 []).reg 4 = 0#10 := by decide

theorem witness_MemReadChecksTheExtent : [7#10].length ≤ (1#10).toNat ∧ (0#10).toNat < [7#10].length := by decide
theorem witness_MemWriteOverwritesExtendsOrRaises : (0#10).toNat < [7#10].length ∧ (1#10).toNat = [7#10].length ∧
    [7#10].length < (2#10).toNat := by decide
/-- The last address has room. -/
theorem witness_MemWrite_last_address : (1023#10).toNat = (zeros 1023).length := (zeros_length 1023).symm
theorem witness_ReadAfterWrite : memWrite false [7, 8] 1 9 = some [7, 9] ∧ memWrite true [7, 8] 2 9 = some [7, 8, 9] := by
  decide

/-- A store over the next instruction, and one that makes it by growing the memory. -/
theorem witness_StoreReachesTheNextFetch_over : (machineAt [915, 0] 0 [(5, 1)]).Fetches 915 ∧ decode 915 = .st 1 5 ∧
    ((machineAt [915, 0] 0 [(5, 1)]).reg 5).toNat = (machineAt [915, 0] 0 [(5, 1)]).pc.toNat + 1 := by decide
theorem witness_StoreReachesTheNextFetch_grown : (machineAt [915] 0 [(5, 1)]).Fetches 915 ∧
    ((machineAt [915] 0 [(5, 1)]).reg 5).toNat = (machineAt [915] 0 [(5, 1)]).memLen := by decide
theorem witness_MemoryGrowsOnlyByStoreAtEnd : ∃ t, step (machineAt [915] 0 [(5, 1)]) = .next t ∧ t.memLen = 2 :=
  ⟨_, rfl, by decide⟩

theorem witness_RegisterWriteFrame : instrWrites (.ld 1 2) = [1] ∧ instrWrites (.mul 9 9) = [9] ∧
    (∃ t, exec (.ld 1 2) (machineAt [0] 1 [(2, 0)]) = .next t) ∧
    ∃ t, exec (.ld 1 2) (machineAt [0] 1 [(2, 1)]) = .next t := ⟨rfl, rfl, ⟨_, rfl⟩, ⟨_, rfl⟩⟩
theorem witness_StoreFrame : (∃ t, exec (.st 1 2) (machineAt [0] 1 [(2, 1)]) = .next t) ∧
    ∃ t, exec (.st 1 2) (machineAt [0] 1 [(2, 2)]) = .next t := ⟨⟨_, rfl⟩, ⟨_, rfl⟩⟩
theorem witness_ControlFrame : ∀ i ∈ [Instr.halt, .haltIllegal 0 1, .jnz 1 2, .undispatched 0 0],
    instrWrites i = [] ∧ (∀ d src, i ≠ .st d src) := by
  simp [instrWrites]

/-- A register outside the instruction, one it only writes, and a jump that does not read its target. -/
theorem witness_RegistersReadAndWritten :
    (3 : RegIndex) ∉ instrReads (.add 1 2) (machineAt [] 1 []) ∧ (3 : RegIndex) ∉ instrWrites (.add 1 2) ∧
    (1 : RegIndex) ∉ instrReads (.ld 1 2) (machineAt [0] 1 []) ∧ (1 : RegIndex) ∈ instrWrites (.ld 1 2) ∧
    (1 : RegIndex) ∉ instrReads (.jnz 1 2) (machineAt [] 1 []) ∧
    ∃ t, exec (.ld 1 2) (machineAt [0] 1 []) = .next t ∧ t.phase ≠ .faulted :=
  ⟨by decide, by decide, by decide, by decide, by decide, _, rfl, by decide⟩
theorem witness_StatusIsNotReadByInstructions : ∃ t, exec (.st 1 2) (machineAt [0] 1 []) = .next t := ⟨_, rfl⟩

/-- The three conditions of rule R89, each at its boundary, and each one short of it. -/
theorem witness_FaultIsTakenAsDescribed : raisedBy 101 (machineAt [101] 0 []) = some .invalidInstruction ∧
    raisedBy 812 (machineAt [812, 0] 0 [(2, 2)]) = some .outOfBoundsAccess ∧
    raisedBy 915 (machineAt [915, 0] 0 [(5, 3)]) = some .outOfBoundsAccess ∧
    (machineAt [812, 0] 0 [(2, 2)]).Fetches 812 ∧ (machineAt [915, 0] 0 [(5, 3)]).Fetches 915 := by decide
theorem witness_FaultConditionsAreExact : ∃ t, raisedBy 812 (machineAt [812, 0] 0 [(2, 1)]) = none ∧
    raisedBy 915 (machineAt [915, 0] 0 [(5, 2)]) = none ∧ raisedBy 200 (machineAt [200] 0 []) = none ∧
    (machineAt [915, 0] 0 [(5, 2)]).Fetches 915 ∧ (machineAt [915, 0] 0 [(5, 2)]).fault = none ∧
    step (machineAt [915, 0] 0 [(5, 2)]) = .next t :=
  ⟨_, by decide, by decide, by decide, by decide, rfl, rfl⟩
theorem witness_FaultsArePrecise : ∃ t, (machineAt [915, 0] 0 [(5, 3)]).Inv ∧
    (machineAt [915, 0] 0 [(5, 3)]).phase = .running ∧ step (machineAt [915, 0] 0 [(5, 3)]) = .next t ∧
    t.phase = .faulted := ⟨_, by decide, rfl, rfl, rfl⟩
theorem witness_HaltedIsSetByHaltAndFaults : ∃ t u, (machineAt [100] 0 []).halted = false ∧
    step (machineAt [100] 0 []) = .next t ∧ halted.halted = true ∧ step halted = .next u := ⟨_, _, rfl, rfl, rfl, rfl⟩

theorem witness_EveryStepCompletes : (machineAt (zeros 1024) 1024 []).mem.wf = true := by
  rw [Memory.wf_iff]
  exact Nat.le_of_eq (zeros_length 1024)

end Sys2Proof.Tests
end

/-!
PROOFS, the state of the core: what decoding a word says of it, the fault of an instruction, what an instruction and a
step leave unchanged, the invariant, and noninterference.
-/

namespace Sys2Proof

/-! ## The decoder -/

/-- The row of the opcode map keeps the fields it was selected by, for every opcode value of a word (R53). -/
theorem fieldsOf_instrOfFields {op : Nat} (h : op ≤ 10) (p q : Digit) :
    fieldsOf (instrOfFields op p q) = (op, p, q) := by
  match op, h with
  | 1, _ =>
    simp only [instrOfFields]
    split
    · next h0 => rw [h0.1, h0.2]; rfl
    · rfl
  | 0, _ | 2, _ | 3, _ | 4, _ | 5, _ | 6, _ | 7, _ | 8, _ | 9, _ | 10, _ => rfl

/-- A value is the decimal sum of its fields (R48). -/
theorem joinFields_splitFields (v : Nat) :
    joinFields (splitFields v).1 (splitFields v).2.1 (splitFields v).2.2 = v := by
  simp only [joinFields, splitFields, dig_val]
  omega

/-- Encoding a decoded word gives its value back (R60). -/
theorem encodeValue_decode (w : Word) : encodeValue (decode w) = w.toNat := by
  have hop : (splitFields w.toNat).1 ≤ 10 := by
    have := w.isLt
    simp only [splitFields]
    omega
  rw [encodeValue, decode, fieldsOf_instrOfFields hop]
  exact joinFields_splitFields _

/-- Encoding a decoded word gives the word back (R60). -/
@[simp] theorem encode_decode (w : Word) : encode (decode w) = w := by
  rw [encode, encodeValue_decode, BitVec.ofNat_toNat, BitVec.setWidth_eq]

/-- HALT is the word 100 and no other (R53, R54). -/
theorem decode_eq_halt_iff (w : Word) : decode w = .halt ↔ w = 100#10 := by
  constructor
  · intro h
    rw [← encode_decode w, h]
    rfl
  · rintro rfl
    decide

/-- Every word decodes to an instruction of the core: a HALT-ILLEGAL without operands would be the word 100, and an
UNDISPATCHED past 23 no word (R49, R54). -/
theorem decode_wellFormed (w : Word) : (decode w).WellFormed := by
  have hv := encodeValue_decode w
  have hw := w.isLt
  cases hd : decode w with
  | haltIllegal p q =>
    by_contra hz
    obtain ⟨rfl, rfl⟩ : p = 0 ∧ q = 0 := by simpa [Instr.wellFormed] using hz
    have h100 : w = 100#10 := by
      rw [← encode_decode w, hd]
      rfl
    cases hd.symm.trans ((decode_eq_halt_iff w).2 h100)
  | undispatched p q =>
    rw [hd] at hv
    simp only [encodeValue, fieldsOf, joinFields] at hv
    exact decide_eq_true (by omega)
  | _ => rfl

/-- Every well-formed instruction's value is one of its row's words (R53). -/
theorem encodeValue_mem_row : ∀ i : Instr, Laws.RowRange.Statement i
  | .halt => Laws.RowRange.halt
  | .haltIllegal p q => Laws.RowRange.haltIllegal p q
  | .seti d n => Laws.RowRange.seti d n
  | .addi d n => Laws.RowRange.addi d n
  | .muli d n => Laws.RowRange.muli d n
  | .mov d src => Laws.RowRange.mov d src
  | .add d src => Laws.RowRange.add d src
  | .mul d src => Laws.RowRange.mul d src
  | .ld d src => Laws.RowRange.ld d src
  | .st d src => Laws.RowRange.st d src
  | .jnz d src => Laws.RowRange.jnz d src
  | .undispatched p q => Laws.RowRange.undispatched p q

/-- A word lies in the row of the instruction it decodes to (R53). -/
theorem decode_row (w : Word) :
    (Laws.RowRange.rowWords (decode w)).1 ≤ w.toNat ∧ w.toNat ≤ (Laws.RowRange.rowWords (decode w)).2 := by
  simpa only [encodeValue_decode] using encodeValue_mem_row (decode w) (decode_wellFormed w)

/-- The last digit of a value is the field p2 (R48). -/
theorem ofNat_joinFields (op : Nat) (p q : Digit) : Fin.ofNat 10 (joinFields op p q) = q := by
  have := q.isLt
  refine (digit_eq ?_).symm
  simp only [joinFields]
  omega

end Sys2Proof

namespace Sys2Proof.Machine

/-! ## The fault of an instruction -/

/-- The fault that rule R89 gives a well-formed instruction executed in the state s. -/
def faultOf (i : Instr) (s : State) : Option FaultKind :=
  match i with
  | .haltIllegal _ _ => some .invalidInstruction
  | .ld _ src => if s.memLen ≤ (s.reg src).toNat then some .outOfBoundsAccess else none
  | .st _ src => if s.memLen < (s.reg src).toNat then some .outOfBoundsAccess else none
  | _ => none

/-- The fetch changes nothing that a fault depends on. -/
@[simp] theorem faultOf_fetchAdvance (i : Instr) (s : State) : faultOf i s.fetchAdvance = faultOf i s := rfl

/-- The fault read from a word's decimal value is the one of the instruction it decodes to (R53, R89). -/
theorem raisedBy_eq_faultOf (w : Word) (s : State) : raisedBy w s = faultOf (decode w) s := by
  have hrow := decode_row w
  have hv := encodeValue_decode w
  cases hd : decode w <;> rw [hd] at hrow hv <;> simp only [Laws.RowRange.rowWords] at hrow
  case haltIllegal p q => exact if_pos hrow
  case ld d src =>
    have hp2 : Fin.ofNat 10 w.toNat = src := hv ▸ ofNat_joinFields 8 d src
    simp only [raisedBy, faultOf, hp2]
    rw [if_neg (by omega), if_neg (c := _ = 9 ∧ _) (by omega)]
    simp only [show w.toNat / 100 = 8 by omega, true_and]
  case st d src =>
    have hp2 : Fin.ofNat 10 w.toNat = src := hv ▸ ofNat_joinFields 9 d src
    simp only [raisedBy, faultOf, hp2]
    rw [if_neg (by omega), if_neg (by omega)]
    simp only [show w.toNat / 100 = 9 by omega, true_and]
  all_goals
    simp only [raisedBy, faultOf]
    rw [if_neg (by omega), if_neg (by omega), if_neg (by omega)]

/-- An instruction of the core whose fault condition holds raises that fault, and does nothing else (R89, R91). -/
theorem exec_of_faultOf_some {i : Instr} {s : State} {k : FaultKind} (hi : i.WellFormed) (h : faultOf i s = some k) :
    exec i s = .next (s.raise k i) := by
  cases i with
  | haltIllegal p q =>
    cases h
    have hpq : ¬ (p = 0 ∧ q = 0) := by
      rintro ⟨rfl, rfl⟩
      exact absurd hi (by decide)
    rcases opcodeOne_cases p q (.haltIllegal p q) s with ⟨-, he⟩ | ⟨hp, hq, -⟩
    · exact he
    · exact absurd ⟨hp, hq⟩ hpq
  | ld d src =>
    obtain ⟨hl, rfl⟩ : s.memLen ≤ (s.reg src).toNat ∧ FaultKind.outOfBoundsAccess = k := by
      simpa [faultOf] using h
    rcases execLd_cases d src s with ⟨v, hv, -⟩ | ⟨-, he⟩
    · exact absurd (lt_of_cell hv) (Nat.not_lt.2 hl)
    · exact he
  | st d src =>
    obtain ⟨hl, rfl⟩ : s.memLen < (s.reg src).toNat ∧ FaultKind.outOfBoundsAccess = k := by
      simpa [faultOf] using h
    rcases execSt_cases d src s with ⟨m, hle, -⟩ | ⟨-, he⟩
    · omega
    · exact he
  | _ => cases h

/-! ## What every instruction leaves unchanged -/

section
variable {i : Instr} {s t : State}

/-- An instruction without a fault, other than HALT, leaves the status as it was (R17, R21). -/
theorem exec_status (h : exec i s = .next t) (hf : faultOf i s = none) (hi : i ≠ .halt) : s.SameStatus t := by
  rcases exec_next_cases h with ⟨rfl, -⟩ | ⟨p, q, rfl, -⟩ | ⟨d, v, -, rfl, -⟩ | ⟨d, src, rfl, hl, -⟩ |
    ⟨d, src, m, rfl, -, -, rfl⟩ | ⟨d, src, rfl, hl, -⟩ | ⟨d, src, rfl, ⟨-, rfl⟩ | ⟨-, rfl⟩⟩ | ⟨p, q, rfl, rfl⟩
  · exact absurd rfl hi
  · cases hf
  · exact ⟨rfl, rfl, rfl, rfl⟩
  · simp [faultOf, hl] at hf
  · exact ⟨rfl, rfl, rfl, rfl⟩
  · simp [faultOf, hl] at hf
  all_goals exact ⟨rfl, rfl, rfl, rfl⟩

/-- What an instruction can do to the state, without the conditions: the part of `exec_next_cases` that frames need. -/
theorem exec_change (h : exec i s = .next t) :
    t = s ∨ t = s.halt ∨ (∃ k, t = s.raise k i) ∨
    (∃ d v, instrWrites i = [d] ∧ t = s.setReg d v) ∨
    (∃ d src m, i = .st d src ∧ memWrite true s.mem (s.reg src) (s.reg d) = some m ∧ t = s.setMem m) ∨
    (∃ d src, i = .jnz d src ∧ s.reg src ≠ 0#10 ∧ t = s.setPc (zextPc (s.reg d))) := by
  rcases exec_next_cases h with ⟨-, ht⟩ | ⟨p, q, -, ⟨-, -, ht⟩ | ⟨-, ht⟩⟩ | ⟨d, v, hd, ht, -⟩ | ⟨d, src, -, -, ht⟩ |
    ⟨d, src, m, hi, -, hm, ht⟩ | ⟨d, src, -, -, ht⟩ | ⟨d, src, hi, ⟨hz, ht⟩ | ⟨-, ht⟩⟩ | ⟨p, q, -, ht⟩
  · exact .inr (.inl ht)
  · exact .inr (.inl ht)
  · exact .inr (.inr (.inl ⟨_, ht⟩))
  · exact .inr (.inr (.inr (.inl ⟨d, v, hd, ht⟩)))
  · exact .inr (.inr (.inl ⟨_, ht⟩))
  · exact .inr (.inr (.inr (.inr (.inl ⟨d, src, m, hi, hm, ht⟩))))
  · exact .inr (.inr (.inl ⟨_, ht⟩))
  · exact .inr (.inr (.inr (.inr (.inr ⟨d, src, hi, hz, ht⟩))))
  · exact .inl ht
  · exact .inl ht

/-- No instruction changes the count (R23, R66). -/
theorem exec_count (h : exec i s = .next t) : t.count = s.count := by
  rcases exec_change h with rfl | rfl | ⟨k, rfl⟩ | ⟨d, v, -, rfl⟩ | ⟨d, src, m, -, -, rfl⟩ | ⟨d, src, -, -, rfl⟩ <;> rfl

/-- An instruction writes no register but its destination (R16, R17). -/
theorem exec_reg_of_not_written (h : exec i s = .next t) {r : RegIndex} (hr : r ∉ instrWrites i) :
    t.reg r = s.reg r := by
  rcases exec_change h with rfl | rfl | ⟨k, rfl⟩ | ⟨d, v, hd, rfl⟩ | ⟨d, src, m, -, -, rfl⟩ | ⟨d, src, -, -, rfl⟩
  · rfl
  · rfl
  · rfl
  · rw [hd, List.mem_singleton] at hr
    exact State.reg_setReg_of_ne s v hr
  · rfl
  · rfl

/-- Only a store within its bound changes the memory, and it is then MemWrite's result (R86). -/
theorem exec_mem (h : exec i s = .next t) :
    t.mem = s.mem ∨ ∃ d src, i = .st d src ∧ memWrite true s.mem (s.reg src) (s.reg d) = some t.mem := by
  rcases exec_change h with rfl | rfl | ⟨k, rfl⟩ | ⟨d, v, -, rfl⟩ | ⟨d, src, m, hi, hm, rfl⟩ | ⟨d, src, -, -, rfl⟩
  · exact .inl rfl
  · exact .inl rfl
  · exact .inl rfl
  · exact .inl rfl
  · exact .inr ⟨d, src, hi, hm⟩
  · exact .inl rfl

/-- Only a taken jump changes the pc, to the target register's value (R19, R87). -/
theorem exec_pc (h : exec i s = .next t) :
    t.pc = s.pc ∨ ∃ d src, i = .jnz d src ∧ s.reg src ≠ 0#10 ∧ t.pc = zextPc (s.reg d) := by
  rcases exec_change h with rfl | rfl | ⟨k, rfl⟩ | ⟨d, v, -, rfl⟩ | ⟨d, src, m, -, -, rfl⟩ | ⟨d, src, hi, hz, rfl⟩
  · exact .inl rfl
  · exact .inl rfl
  · exact .inl rfl
  · exact .inl rfl
  · exact .inl rfl
  · exact .inr ⟨d, src, hi, hz, rfl⟩

/-- A JNZ whose condition register is nonzero jumps (R87). -/
theorem exec_jnz_of_ne_zero {d src : RegIndex} (hz : s.reg src ≠ 0#10) :
    exec (.jnz d src) s = .next (s.setPc (zextPc (s.reg d))) := by
  rcases execJnz_cases d src s with ⟨-, he⟩ | ⟨h0, -⟩
  · exact he
  · exact absurd h0 hz

/-- An instruction other than ST leaves the memory as it was (R86). -/
theorem exec_mem_of_ne_st (h : exec i s = .next t) (hi : ∀ d src, i ≠ .st d src) : t.mem = s.mem :=
  (exec_mem h).resolve_right fun ⟨d, src, he, _⟩ => hi d src he

/-- An instruction other than JNZ leaves the pc as the fetch left it (R19). -/
theorem exec_pc_of_ne_jnz (h : exec i s = .next t) (hi : ∀ d src, i ≠ .jnz d src) : t.pc = s.pc :=
  (exec_pc h).resolve_right fun ⟨d, src, he, _⟩ => hi d src he

/-- Executing an instruction keeps the memory's canonical form (R25). -/
theorem exec_wf (h : exec i s = .next t) (hs : s.mem.wf = true) : t.mem.wf = true := by
  rcases exec_mem h with he | ⟨d, src, -, hm⟩
  · rw [he, hs]
  · exact memWrite_wf hs hm

/-- Executing an instruction keeps the pc within 1024, since a jump target is a word (R18). -/
theorem exec_pc_le (h : exec i s = .next t) (hs : s.pc.toNat ≤ Config.memCap) : t.pc.toNat ≤ Config.memCap := by
  rcases exec_pc h with hpc | ⟨d, src, -, -, hpc⟩
  · rwa [hpc]
  · rw [hpc, zextPc_toNat]
    exact (word_le _).trans (by decide)

/-- Equal memories have the same extent and read the same. -/
theorem sameMem_of_mem_eq (h : t.mem = s.mem) : s.SameMem t :=
  ⟨by rw [State.memLen, State.memLen, h], fun a => by rw [h]⟩

end

/-! ## Steps that fetch -/

section
variable {s t : State} {w : Word}

/-- A step that fetches executes the decoded word (R64, R71). -/
theorem step_of_fetches (h : s.Fetches w) : step s = exec (decode w) s.fetchAdvance := by
  rw [step, stepHead_of_fetches h]

/-- A state fetches at most one word. -/
theorem fetches_iff_eq {v : Word} (h : s.Fetches w) : s.Fetches v ↔ v = w := by
  constructor
  · intro h'
    obtain ⟨-, -, -, hw⟩ := h
    obtain ⟨-, -, -, hv⟩ := h'
    exact Option.some.inj (hv.symm.trans hw)
  · rintro rfl
    exact h

/-- A state whose pc is at or past memLen fetches nothing (R63). -/
theorem not_fetches_of_memLen_le (h : s.memLen ≤ s.pc.toNat) : ¬ s.Fetches w := by
  rintro ⟨-, -, -, hc⟩
  exact absurd (lt_of_cell hc) (Nat.not_lt.2 h)

/-- What a step that fetches can do to the status: raise the instruction's fault, halt at HALT, or leave it (R68). -/
theorem step_of_fetches_cases (hw : s.Fetches w) (h : step s = .next t) :
    (∃ k, faultOf (decode w) s = some k ∧ t = s.fetchAdvance.raise k (decode w)) ∨
    (faultOf (decode w) s = none ∧ decode w = .halt ∧ t = s.fetchAdvance.halt) ∨
    (faultOf (decode w) s = none ∧ decode w ≠ .halt ∧ s.fetchAdvance.SameStatus t) := by
  rw [step_of_fetches hw] at h
  cases hf : faultOf (decode w) s with
  | some k =>
    rw [exec_of_faultOf_some (decode_wellFormed w) (s := s.fetchAdvance) hf] at h
    cases h
    exact .inl ⟨k, rfl, rfl⟩
  | none =>
    by_cases hd : decode w = .halt
    · rw [hd] at h
      cases h
      exact .inr (.inl ⟨rfl, hd, rfl⟩)
    · exact .inr (.inr ⟨rfl, hd, exec_status h hf hd⟩)

/-- Where w is fetched, "HALT or a word that raises a fault is fetched" speaks of the instruction w is (R53, R89). -/
theorem fetches_halt_or_fault_iff (hw : s.Fetches w) :
    (s.Fetches 100#10 ∨ ∃ v k, s.Fetches v ∧ raisedBy v s = some k) ↔
      decode w = .halt ∨ ∃ k, faultOf (decode w) s = some k := by
  simp only [fetches_iff_eq hw, raisedBy_eq_faultOf, decode_eq_halt_iff, eq_comm (a := w), exists_and_left,
    exists_eq_left]

end

/-! ## The invariant -/

/-- A fault record is justified exactly where it names the last fetched word and that word's fault (R89, R91). -/
theorem faultJustified_iff (s : State) (r : FaultRecord) :
    s.faultJustified r = true ↔ s.mem.cell r.addr.toNat = some r.instr ∧ s.pc.toNat = r.addr.toNat + 1 ∧
      faultOf (decode r.instr) s = some r.kind := by
  simp only [State.faultJustified, Bool.and_eq_true, beq_iff_eq, and_assoc]
  refine and_congr_right fun _ => and_congr_right fun _ => ?_
  have hk (k : FaultKind) : r.kind = k ↔ some k = some r.kind := by rw [Option.some.injEq, eq_comm]
  cases decode r.instr <;> simp [faultOf, hk, and_comm]

/-- The status that the invariant gives a state in the phase p (R22, R63, R68). -/
def State.PhaseInv (s : State) (p : Phase) : Prop :=
  match p with
  | .ready => s.ReadyInv
  | .running => s.RunningInv
  | .halted => s.HaltedInv
  | .faulted => s.FaultedInv
  | .exhausted => s.ExhaustedInv

/-- The invariant is the memory bound, the pc bound and the status of the state's own phase. -/
theorem inv_iff (s : State) : s.Inv ↔ s.mem.wf = true ∧ s.pc.toNat ≤ Config.memCap ∧ s.PhaseInv s.phase := by
  refine and_congr_right fun _ => and_congr_right fun _ => ?_
  cases s.phase <;> simp [State.PhaseInv]

section
variable {s t : State} {w : Word}

/-- The start of a run keeps the invariant (R62). -/
theorem beginRun_inv (hs : s.Inv) (hp : s.phase = .ready) : s.beginRun.Inv := by
  obtain ⟨hm, hpc, hst⟩ := (inv_iff s).1 hs
  rw [hp] at hst
  obtain ⟨hh, hf, -⟩ := hst
  exact (inv_iff _).2 ⟨hm, hpc, hh, hf⟩

/-- A Running state with the invariant whose pc is at or past memLen becomes Exhausted with it (R63). -/
theorem exhaust_inv (hs : s.Inv) (hp : s.phase = .running) (hl : s.memLen ≤ s.pc.toNat) : s.exhaust.Inv := by
  obtain ⟨hm, hpc, hst⟩ := (inv_iff s).1 hs
  rw [hp] at hst
  obtain ⟨hh, hf⟩ := hst
  exact (inv_iff _).2 ⟨hm, hpc, hh, hf, hl⟩

/-- The record that a faulting instruction makes is justified in the state it leaves (R91, R93). -/
theorem raise_faultJustified {k : FaultKind} (hw : s.Fetches w) (hk : faultOf (decode w) s = some k) :
    (s.fetchAdvance.raise k (decode w)).faultJustified
      { kind := k, instr := encode (decode w), addr := s.fetchAdvance.fetchAddr } = true := by
  obtain ⟨-, -, hlt, hc⟩ := hw
  rw [faultJustified_iff]
  simp only [encode_decode, fetchAddr_fetchAdvance hlt]
  exact ⟨hc, pc_succ_toNat hlt, hk⟩

/-- A step that fetches keeps the invariant: it faults with a justified record, halts behind HALT, or stays Running
(R68). -/
theorem step_inv_of_fetches (hs : s.Inv) (hw : s.Fetches w) (h : step s = .next t) : t.Inv := by
  obtain ⟨hm, hpc, hst⟩ := (inv_iff s).1 hs
  have he := step_of_fetches hw ▸ h
  have ⟨hp, hh, hlt, hc⟩ := hw
  rw [hp] at hst
  obtain ⟨-, hf⟩ := hst
  have hadv : s.fetchAdvance.pc.toNat = s.pc.toNat + 1 := pc_succ_toNat hlt
  refine (inv_iff t).2 ⟨exec_wf he hm, exec_pc_le he (by omega), ?_⟩
  rcases step_of_fetches_cases hw h with ⟨k, hk, rfl⟩ | ⟨-, hd, rfl⟩ | ⟨-, -, hth, htp, -, htf⟩
  · exact ⟨rfl, Nat.succ_pos _, raise_faultJustified hw hk⟩
  · have hcell : s.mem.cell (s.fetchAdvance.pc.toNat - 1) = some 100#10 := by
      rw [hadv, Nat.add_sub_cancel, hc, (decode_eq_halt_iff w).1 hd]
    exact ⟨rfl, hf, Nat.succ_pos _, hadv ▸ Nat.succ_pos _, hcell⟩
  · rw [htp.trans hp]
    exact ⟨hth.trans hh, htf.trans hf⟩

end

/-! ## The obligations on the invariant -/

/-- Settles O54: by the cases of a step, of which only the fetch does more than move the phase. -/
theorem stepKeepsInv : Obligations.StepKeepsInv := by
  intro s t hs h
  rcases step_next_cases h with ⟨hp, rfl⟩ | ⟨-, -, rfl⟩ | ⟨hp, -, hl, rfl⟩ | ⟨w, hw, -⟩ | ⟨-, rfl⟩
  · exact beginRun_inv hs hp
  · exact hs
  · exact exhaust_inv hs hp hl
  · exact step_inv_of_fetches hs hw h
  · exact hs

/-- Settles O55: every clause of the invariant is about a closed state. -/
theorem resetInv : Obligations.ResetInv := by
  refine (inv_iff State.reset).2 ⟨reset_mem_wf, Nat.zero_le _, ?_⟩
  exact ⟨rfl, rfl, rfl, rfl, rfl⟩

/-- Settles O18: the registers by `reset_reg`, the other elements by definition. -/
theorem resetValues : Obligations.ResetValues :=
  ⟨State.reset_reg, rfl, rfl, State.reset_memLen, rfl, rfl, rfl, rfl⟩

/-! ## The obligations on steps -/

/-- Settles O53: HALT and a fault set halted, and any other instruction leaves it as it was. -/
theorem haltedIsSetByHaltAndFaults : Obligations.HaltedIsSetByHaltAndFaults := by
  constructor
  · intro s t hp hh h
    rcases step_next_cases h with ⟨hp', -⟩ | ⟨-, hh', -⟩ | ⟨-, -, hl, rfl⟩ | ⟨w, hw, -⟩ | ⟨hp', -⟩
    · simp [hp] at hp'
    · simp [hh] at hh'
    · simp [hh, not_fetches_of_memLen_le hl]
    · rw [fetches_halt_or_fault_iff hw]
      rcases step_of_fetches_cases hw h with ⟨k, hk, rfl⟩ | ⟨-, hd, rfl⟩ | ⟨hk, hd, hth, -⟩
      · simp [hk]
      · simp [hd]
      · simp [hk, hd, hth, hh]
    · simp [hp, Phase.terminal] at hp'
  · intro s t hh h
    rcases step_next_cases h with ⟨-, rfl⟩ | ⟨-, -, rfl⟩ | ⟨-, hh', -⟩ | ⟨w, ⟨-, hh', -⟩, -⟩ | ⟨-, rfl⟩
    · exact hh
    · exact hh
    · simp [hh] at hh'
    · simp [hh] at hh'
    · exact hh

/-- Settles O16: the fetch advances the pc, and of the instructions only a taken JNZ writes it. -/
theorem pcAdvancesUnlessJumping : Obligations.PcAdvancesUnlessJumping := by
  intro s t w hw h
  rw [step_of_fetches hw] at h
  obtain ⟨-, -, hlt, -⟩ := hw
  constructor
  · intro d src hd hz
    rw [hd, exec_jnz_of_ne_zero (s := s.fetchAdvance) hz] at h
    cases h
    exact zextPc_toNat _
  · intro hnot
    rcases exec_pc h with hpc | ⟨d, src, hd, hz, -⟩
    · rw [hpc, State.fetchAdvance_pc, pc_succ_toNat hlt]
    · exact absurd (hnot d src hd) hz

/-- Settles O43: outside a fetch the memory stays, and of the instructions only ST writes it, growing it at memLen
alone. -/
theorem memoryGrowsOnlyByStoreAtEnd : Obligations.MemoryGrowsOnlyByStoreAtEnd := by
  intro s t h
  rcases step_next_cases h with ⟨-, rfl⟩ | ⟨-, -, rfl⟩ | ⟨-, -, -, rfl⟩ | ⟨w, hw, he⟩ | ⟨-, rfl⟩
  · exact .inl rfl
  · exact .inl rfl
  · exact .inl rfl
  · rcases exec_mem he with hm | ⟨d, src, hd, hm⟩
    · exact .inl (congrArg List.length hm)
    · rcases memWrite_cases true s.mem (s.reg src) (s.reg d) with ⟨-, hover⟩ | ⟨hend, -, hgrow⟩ | ⟨-, hnone⟩
      · have hset : s.mem.set (s.reg src).toNat (s.reg d) = t.mem := Option.some.inj (hover.symm.trans hm)
        exact .inl (by rw [State.memLen, State.memLen, ← hset, List.length_set])
      · exact .inr ⟨w, d, src, hw, hd, hend, (Option.some.inj (hgrow.symm.trans hm)).symm⟩
      · cases hnone.symm.trans hm
  · exact .inl rfl

/-! ## The obligations on frames -/

/-- Settles O45: an instruction with a destination is none of HALT, ST and JNZ, and faults only as an LD past the
extent. -/
theorem registerWriteFrame : Obligations.RegisterWriteFrame := by
  intro i d s t hw h
  have hhalt : i ≠ .halt := by rintro rfl; cases hw
  have hst : ∀ d src, i ≠ .st d src := by rintro _ _ rfl; cases hw
  have hjnz : ∀ d src, i ≠ .jnz d src := by rintro _ _ rfl; cases hw
  refine ⟨fun r hr => exec_reg_of_not_written h (by simpa [hw] using hr), exec_pc_of_ne_jnz h hjnz,
    sameMem_of_mem_eq (exec_mem_of_ne_st h hst), exec_count h, fun hld => exec_status h ?_ hhalt, ?_⟩
  · cases i with
    | ld d' src => exact if_neg (Nat.not_le.2 (hld d' src rfl))
    | halt | haltIllegal | st | jnz | undispatched => cases hw
    | _ => rfl
  · rintro src rfl hl
    have hraise := exec_of_faultOf_some (i := .ld d src) rfl (if_pos hl)
    cases h.symm.trans hraise
    exact fun r => rfl

/-- Settles O46: ST writes no register, writes the memory by MemWrite, and faults past memLen, where it writes
nothing. -/
theorem storeFrame : Obligations.StoreFrame := by
  intro d src s t h
  refine ⟨fun r => exec_reg_of_not_written h List.not_mem_nil, exec_pc_of_ne_jnz h nofun, exec_count h,
    fun a ha => ?_, fun hl => exec_status h (if_neg (Nat.not_lt.2 hl)) nofun, fun hl => ?_⟩
  · rcases exec_mem h with hm | ⟨d', src', hi, hm⟩
    · rw [hm]
    · cases hi
      exact (memWrite_cell hm a).trans (if_neg ha)
  · have hraise := exec_of_faultOf_some (i := .st d src) rfl (if_pos hl)
    cases h.symm.trans hraise
    exact ⟨rfl, fun a => rfl⟩

/-- Settles O47: these instructions have no destination and are no ST, and JNZ and UNDISPATCHED have no fault. -/
theorem controlFrame : Obligations.ControlFrame := by
  intro i s t hw hst h
  refine ⟨fun r => exec_reg_of_not_written h (by simp [hw]), sameMem_of_mem_eq (exec_mem_of_ne_st h hst), exec_count h,
    exec_pc_of_ne_jnz h, ?_, ?_⟩
  · rintro (⟨d, src, rfl⟩ | ⟨p, q, rfl⟩)
    · exact exec_status h rfl nofun
    · exact exec_status h rfl nofun
  · rintro rfl
    cases h
    rfl

/-! ## Noninterference

What an instruction does to the state is one effect, and the effect is a function of the memory and of the registers in
the instruction's row alone (R17). -/

/-- The one change an instruction makes to the state after the fetch. -/
inductive Effect where
  /-- Nothing beyond the fetch. -/
  | nothing
  /-- The status of HALT. -/
  | halt
  /-- A fault of kind k is raised. -/
  | raise (k : FaultKind)
  /-- The register d is written with v. -/
  | setReg (d : RegIndex) (v : Word)
  /-- The memory becomes m. -/
  | setMem (m : Memory)
  /-- The pc becomes p. -/
  | setPc (p : Pc)

/-- The state in which an effect of the instruction i leaves s. -/
def Effect.apply (e : Effect) (i : Instr) (s : State) : State :=
  match e with
  | .nothing => s
  | .halt => s.halt
  | .raise k => s.raise k i
  | .setReg d v => s.setReg d v
  | .setMem m => s.setMem m
  | .setPc p => s.setPc p

/-- The effect of an instruction in the state s (R76 to R88). -/
def effectOf (i : Instr) (s : State) : Effect :=
  match i with
  | .halt => .halt
  | .haltIllegal p q => if p ≠ 0 ∨ q ≠ 0 then .raise .invalidInstruction else .halt
  | .seti d n => .setReg d (literal n)
  | .addi d n => .setReg d (addmod (s.reg d) (literal n))
  | .muli d n => .setReg d (mulmod (s.reg d) (literal n))
  | .mov d src => .setReg d (s.reg src)
  | .add d src => .setReg d (addmod (s.reg d) (s.reg src))
  | .mul d src => .setReg d (mulmod (s.reg d) (s.reg src))
  | .ld d src => (s.mem.cell (s.reg src).toNat).elim (.raise .outOfBoundsAccess) (.setReg d)
  | .st d src => (memWrite true s.mem (s.reg src) (s.reg d)).elim (.raise .outOfBoundsAccess) .setMem
  | .jnz d src => if s.reg src = 0#10 then .nothing else .setPc (zextPc (s.reg d))
  | .undispatched _ _ => .nothing

/-- Executing an instruction is applying its effect. -/
theorem exec_eq_apply (i : Instr) (s : State) : exec i s = .next ((effectOf i s).apply i s) := by
  cases i with
  | haltIllegal p q =>
    rcases opcodeOne_cases p q (.haltIllegal p q) s with ⟨hpq, he⟩ | ⟨rfl, rfl, he⟩
    · rw [effectOf, if_pos hpq]
      exact he
    · exact he
  | ld d src =>
    simp only [exec, execLd, memRead_eq_cell, effectOf, State.effAddr, State.portB]
    cases s.mem.cell (s.reg src).toNat <;> rfl
  | st d src =>
    simp only [exec, execSt, storeWith, Config.storeAtEndGrows, effectOf, State.effAddr, State.portA, State.portB]
    cases memWrite true s.mem (s.reg src) (s.reg d) <;> rfl
  | jnz d src =>
    rcases execJnz_cases d src s with ⟨hz, he⟩ | ⟨hz, he⟩
    · rw [effectOf, if_neg hz]
      exact he
    · rw [effectOf, if_pos hz]
      exact he
  | _ => rfl

section
variable {i : Instr} {s t : State} {e : Effect} {r : RegIndex}

/-- The effect depends on the memory and on the registers the instruction reads, and on nothing else (R17, R27). -/
theorem effectOf_congr (hm : t.mem = s.mem) (hr : ∀ r ∈ instrReads i s, t.reg r = s.reg r) :
    effectOf i t = effectOf i s := by
  cases i with
  | halt | haltIllegal | seti | undispatched => rfl
  | addi | muli | mov | add | mul | ld | st => simp_all [effectOf, instrReads]
  | jnz d src =>
    by_cases hz : s.reg src = 0#10 <;> simp_all [effectOf, instrReads]

/-- The only register an effect writes is one the instruction writes (R17). -/
theorem mem_instrWrites_of_effectOf {v : Word} (h : effectOf i s = .setReg r v) : r ∈ instrWrites i := by
  cases i with
  | halt | undispatched => cases h
  | seti | addi | muli | mov | add | mul =>
    cases h
    exact List.mem_singleton_self _
  | haltIllegal =>
    simp only [effectOf] at h
    split at h <;> cases h
  | ld d src =>
    simp only [effectOf] at h
    cases hc : s.mem.cell (s.reg src).toNat <;> rw [hc] at h <;> cases h
    exact List.mem_singleton_self _
  | st d src =>
    simp only [effectOf] at h
    cases hm : memWrite true s.mem (s.reg src) (s.reg d) <;> rw [hm] at h <;> cases h
  | jnz d src =>
    simp only [effectOf] at h
    split at h <;> cases h

/-- An instruction with a destination writes it or raises a fault (R77 to R85). -/
theorem effectOf_of_mem_instrWrites (h : r ∈ instrWrites i) :
    (∃ v, effectOf i s = .setReg r v) ∨ ∃ k, effectOf i s = .raise k := by
  cases i with
  | halt | haltIllegal | st | jnz | undispatched => cases h
  | ld d src =>
    cases List.mem_singleton.1 h
    simp only [effectOf]
    cases s.mem.cell (s.reg src).toNat with
    | none => exact .inr ⟨_, rfl⟩
    | some v => exact .inl ⟨v, rfl⟩
  | seti | addi | muli | mov | add | mul =>
    cases List.mem_singleton.1 h
    exact .inl ⟨_, rfl⟩

/-- An effect that does not write the register r commutes with a write of r. -/
theorem apply_setReg (h : ∀ u, e ≠ .setReg r u) (v : Word) :
    e.apply i (s.setReg r v) = (e.apply i s).setReg r v := by
  cases e with
  | setReg d u =>
    have hd : r ≠ d := by rintro rfl; exact h u rfl
    exact State.setReg_comm s hd v u
  | _ => rfl

end

/-- Settles O48: by `effectOf_congr`, since the changed register is none that the instruction reads. -/
theorem registersReadAndWritten : Obligations.RegistersReadAndWritten := by
  intro i s t r v h
  have ht := (exec_eq_apply i s).symm.trans h
  cases ht
  have hsame : r ∉ instrReads i s → effectOf i (s.setReg r v) = effectOf i s := fun hr =>
    effectOf_congr rfl fun r' hr' => State.reg_setReg_of_ne s v (ne_of_mem_of_not_mem hr' hr)
  refine ⟨fun hw => exec_reg_of_not_written h hw, fun hr hw => ?_, fun hr hw hp => ?_⟩
  · rw [exec_eq_apply, hsame hr, apply_setReg fun u he => hw (mem_instrWrites_of_effectOf he)]
  · rw [exec_eq_apply, hsame hr]
    rcases effectOf_of_mem_instrWrites (s := s) hw with ⟨u, he⟩ | ⟨k, he⟩
    · rw [he]
      exact congrArg _ (State.setReg_setReg s r v u)
    · rw [he] at hp
      exact absurd rfl hp

/-- Settles O49: the effect is the same by `effectOf_congr`, and applying it reads no status. -/
theorem statusIsNotReadByInstructions : Obligations.StatusIsNotReadByInstructions := by
  intro i s t h p n f he
  have ht := (exec_eq_apply i s).symm.trans he
  cases ht
  refine ⟨_, exec_eq_apply _ _, ?_⟩
  have hsame : effectOf i { s with halted := h, phase := p, count := n, fault := f } = effectOf i s :=
    effectOf_congr rfl fun _ _ => rfl
  rw [hsame]
  cases effectOf i s <;> exact ⟨rfl, rfl, rfl, rfl⟩

end Sys2Proof.Machine

/-!
PROOFS, the memory: MemRead and MemWrite, the host's calls and the append at the end of memory, a store that the next
fetch reads, and that every step completes.
-/

namespace Sys2Proof.Machine

/-! ## The host's calls -/

/-- An append puts its word at the end and leaves every other address as it was (R38). -/
theorem append_cell (s : State) (v : Word) (a : Nat) :
    (s.append v).mem.cell a = if a = s.memLen then some v else s.mem.cell a := by
  rcases Nat.lt_trichotomy a s.memLen with hlt | rfl | hgt
  · rw [if_neg (Nat.ne_of_lt hlt)]
    exact List.getElem?_append_left hlt
  · rw [if_pos rfl]
    exact List.getElem?_concat_length
  · have hend : (s.append v).mem.length ≤ a := List.length_append.trans_le hgt
    rw [if_neg (Nat.ne_of_gt hgt), (cell_eq_none_iff _ a).2 hend, (cell_eq_none_iff _ a).2 (Nat.le_of_lt hgt)]

/-- Everything appendMemory can do: it appends in Ready for a word while there is room, and it is refused otherwise
(R38, D3). -/
theorem hostAppend_cases (v : Int) (s : State) :
    (s.phase = .ready ∧ 0 ≤ v ∧ v ≤ 1023 ∧ s.memLen < 1024 ∧
      hostAppend v s = .next (s.append (BitVec.ofNat 10 v.toNat))) ∨
    ((s.phase ≠ .ready ∨ v < 0 ∨ 1023 < v ∨ 1024 ≤ s.memLen) ∧ ∃ r, hostAppend v s = .refused r) := by
  by_cases hp : s.phase = .ready
  · by_cases hv : v < 0 ∨ 1023 < v
    · exact .inr ⟨by omega, .appendValueOutOfRange, by simp [hostAppend, hp, hv]⟩
    · by_cases hl : s.memLen < 1024
      · exact .inl ⟨hp, by omega, by omega, hl, by simp [hostAppend, hp, hv, hl]⟩
      · exact .inr ⟨by omega, .appendMemoryFull, by simp [hostAppend, hp, hv, hl]⟩
  · exact .inr ⟨.inl hp, .appendOutsideReady, by simp [hostAppend, hp]⟩

/-- Everything reset() can do: it restores the reset state, or is refused in Running (R105). -/
theorem hostReset_cases (s : State) :
    (s.phase ≠ .running ∧ hostReset s = .next State.reset) ∨
    (s.phase = .running ∧ hostReset s = .refused .resetWhileRunning) := by
  by_cases hp : s.phase = .running
  · exact .inr ⟨hp, if_pos hp⟩
  · exact .inl ⟨hp, if_neg hp⟩

/-- Everything the start of run() can do: it begins the run in Ready, is refused in Running, and changes nothing in a
terminal phase (R62, R73, R102). -/
theorem hostRun_cases (s : State) :
    (s.phase = .ready ∧ hostRun s = .next s.beginRun) ∨
    (s.phase = .running ∧ hostRun s = .refused .runWhileRunning) ∨
    (s.phase.terminal = true ∧ hostRun s = .next s) := by
  cases hp : s.phase with
  | ready => exact .inl ⟨rfl, by simp only [hostRun, hp]⟩
  | running => exact .inr (.inl ⟨rfl, by simp only [hostRun, hp]⟩)
  | halted | faulted | exhausted => exact .inr (.inr ⟨rfl, by simp only [hostRun, hp]⟩)

/-- An append in Ready while there is room keeps the invariant (R38). -/
theorem append_inv {s : State} (v : Word) (hs : s.Inv) (hp : s.phase = .ready) (hl : s.memLen < Config.memCap) :
    (s.append v).Inv := by
  obtain ⟨-, hpc, hst⟩ := (inv_iff s).1 hs
  rw [hp] at hst
  refine (inv_iff _).2 ⟨append_wf v hl, hpc, ?_⟩
  rw [State.append_phase, hp]
  exact hst

/-- Settles O20: by `hostAppend_cases`, whose two cases exclude each other; the new memory is read by `append_cell`. -/
theorem appendMemoryContract : Obligations.AppendMemoryContract := by
  intro s v
  constructor
  · intro hp h0 h1 hl
    rcases hostAppend_cases v s with ⟨-, -, -, -, he⟩ | ⟨hno, -⟩
    · have hw : ((BitVec.ofNat 10 v.toNat).toNat : Int) = v := by
        rw [BitVec.toNat_ofNat]
        omega
      exact ⟨_, _, he, hw, (append_cell s _ _).trans (if_pos rfl), List.length_append,
        fun a ha => (append_cell s _ a).trans (if_neg ha), fun _ => rfl, rfl, rfl, rfl, rfl, rfl⟩
    · exact absurd (hno.resolve_left (not_not_intro hp)) (by omega)
  · intro hno
    rcases hostAppend_cases v s with ⟨hp, h0, h1, hl, -⟩ | ⟨-, hr⟩
    · exact absurd (hno.resolve_left (not_not_intro hp)) (by omega)
    · exact hr

/-- Settles O56: each call, where it is not refused, answers the reset state, an append, the begun run or the state
itself. -/
theorem hostCallsKeepInv : Obligations.HostCallsKeepInv := by
  intro c s t hs h
  cases c with
  | reset =>
    rcases hostReset_cases s with ⟨-, he⟩ | ⟨-, he⟩ <;> cases he.symm.trans h
    exact resetInv
  | appendMemory v =>
    rcases hostAppend_cases v s with ⟨hp, -, -, hl, he⟩ | ⟨-, r, he⟩ <;> cases he.symm.trans h
    exact append_inv _ hs hp hl
  | run =>
    rcases hostRun_cases s with ⟨hp, he⟩ | ⟨-, he⟩ | ⟨-, he⟩ <;> cases he.symm.trans h
    · exact beginRun_inv hs hp
    · exact hs

/-! ## MemRead and MemWrite -/

/-- Settles O39: MemRead is the cell, which is empty from the length on. -/
theorem memReadChecksTheExtent : Obligations.MemReadChecksTheExtent := by
  intro m a
  rw [memRead_eq_cell]
  exact ⟨(cell_eq_none_iff m a.toNat).2, fun h => List.getElem?_eq_getElem h⟩

/-- Settles O40: by `memWrite_cases`; the room at the end is the bound of an address. -/
theorem memWriteOverwritesExtendsOrRaises : Obligations.MemWriteOverwritesExtendsOrRaises := by
  intro m a v
  have ha := word_le a
  have happ : (m ++ [v]).length = m.length + 1 := List.length_append
  rcases memWrite_cases Config.storeAtEndGrows m a v with ⟨hl, he⟩ | ⟨hl, -, he⟩ | ⟨hl | ⟨-, hg⟩, he⟩
  · exact ⟨fun _ => he, fun _ => by omega, fun _ => by omega⟩
  · exact ⟨fun _ => by omega, fun _ => ⟨he, by omega, happ, by omega⟩, fun _ => by omega⟩
  · exact ⟨fun _ => by omega, fun _ => by omega, fun _ => he⟩
  · cases hg

/-- Settles O41: a read is the cell, and `memWrite_cell` gives every cell after a write. -/
theorem readAfterWrite : Obligations.ReadAfterWrite := by
  intro g m m' a v h
  have hcell (b : Word) : memRead m' b = if b.toNat = a.toNat then some v else memRead m b := by
    rw [memRead_eq_cell, memRead_eq_cell, memWrite_cell h]
  refine ⟨(hcell a).trans (if_pos rfl), fun b hb => (hcell b).trans (if_neg fun he => hb ?_)⟩
  exact BitVec.eq_of_toNat_eq he

/-! ## Steps -/

/-- A store at or below memLen writes the memory, whose cell then holds the stored word (R86). -/
theorem exec_st_of_le {d src : RegIndex} {s : State} (hl : (s.reg src).toNat ≤ s.memLen) :
    ∃ m, exec (.st d src) s = .next (s.setMem m) ∧ m.cell (s.reg src).toNat = some (s.reg d) := by
  rcases execSt_cases d src s with ⟨m, -, hm, he⟩ | ⟨hgt, -⟩
  · exact ⟨m, he, (memWrite_cell hm _).trans (if_pos rfl)⟩
  · omega

/-- Settles O42: the address after an allocated one is at most memLen, so the store completes; its cell is the one the
pc after the fetch points to, and an address is below 1024, so the pc is one. -/
theorem storeReachesTheNextFetch : Obligations.StoreReachesTheNextFetch := by
  intro s w d src hw hd haddr
  have ⟨hp, hh, hlt, hc⟩ := hw
  have hpc : s.fetchAdvance.pc.toNat = (s.reg src).toNat := by
    rw [haddr, State.fetchAdvance_pc, pc_succ_toNat hlt]
  have hroom : (s.reg src).toNat ≤ s.memLen := haddr ▸ lt_of_cell hc
  obtain ⟨m, he, hm⟩ := exec_st_of_le (d := d) (s := s.fetchAdvance) hroom
  have hnext : (s.fetchAdvance.setMem m).Fetches (s.reg d) :=
    ⟨hp, hh, hpc ▸ (s.reg src).isLt, hpc ▸ hm⟩
  exact ⟨_, by rw [step_of_fetches hw, hd, he], hnext, step_of_fetches hnext⟩

/-- Settles O58: where the memory fits, the head of a step is no missing cell, and every instruction completes. -/
theorem everyStepCompletes : Obligations.EveryStepCompletes := by
  intro s hs
  simp only [step]
  cases hhead : stepHead s with
  | noFetch t => exact ⟨t, rfl⟩
  | noCell => exact absurd hhead (stepHead_ne_noCell hs)
  | fetched w t => exact ⟨_, exec_eq_apply (decode w) t⟩

end Sys2Proof.Machine

/-!
PROOFS, the encoding: fields and values, the round trip of words and instructions, the rows of the opcode map, placed
words, the illegal and the undispatched words, and the pseudo-instructions.
-/

namespace Sys2Proof

/-! ## Fields and values -/

/-- The fields of a value are the ones it is made of (R60). -/
theorem splitFields_joinFields (op : Nat) (p q : Digit) : splitFields (joinFields op p q) = (op, p, q) := by
  obtain ⟨hop, hp, hq⟩ := joinFields_inj (joinFields_splitFields (joinFields op p q))
  exact Prod.ext hop (Prod.ext hp hq)

/-- The decoder selects the row by the number of hundreds (R48, R53). -/
theorem decode_of_hundreds {w : Word} {op : Nat} (h : w.toNat / 100 = op) :
    decode w = instrOfFields op (dig w.toNat 1) (dig w.toNat 0) := by
  subst h
  rfl

/-- The decoder takes the fields that make the word (R48). -/
theorem decode_of_toNat {w : Word} {op : Nat} {p q : Digit} (h : w.toNat = joinFields op p q) :
    decode w = instrOfFields op p q := by
  rw [decode, h, splitFields_joinFields]

/-- Settles O4: `splitFields_joinFields` and `joinFields_splitFields` are the two round trips, and the bounds are those
of a hundred words. -/
theorem fieldsRoundTrip : Obligations.FieldsRoundTrip := by
  refine ⟨fun op p q hop => ⟨rfl, ?_, splitFields_joinFields op p q⟩, fun _ _ _ _ _ _ _ _ he => joinFields_inj he,
    fun v hv => ⟨?_, joinFields_splitFields v⟩, fun v hlo hhi => ?_⟩
  · have hrange := (Laws.RowRange.joinFields_range op p q).2
    omega
  · simp only [splitFields]
    omega
  · have hop : (splitFields v).1 = 10 := by
      simp only [splitFields]
      omega
    have hjoin := joinFields_splitFields v
    rw [hop] at hjoin
    exact ⟨hop, hjoin⟩

/-- Settles O3: the fields by definition, their sum by `joinFields_splitFields`. -/
theorem fieldsAreDecimalDigits : Obligations.FieldsAreDecimalDigits := by
  have htens (v : Nat) : dig v 1 = Fin.ofNat 10 (v / 10) := digit_eq rfl
  have hunits (v : Nat) : dig v 0 = Fin.ofNat 10 v := digit_eq (by simp)
  refine ⟨fun v => ⟨rfl, rfl, ?_, (joinFields_splitFields v).symm⟩, fun w => ⟨?_, ?_⟩⟩
  · exact congrArg Fin.val (hunits v)
  · have := w.isLt
    simp only [splitFields]
    omega
  · rw [decode_of_hundreds rfl, htens, hunits]

/-! ## The round trip of instructions -/

/-- A well-formed instruction is the one its own fields select (R53, R54). -/
theorem instrOfFields_fieldsOf {i : Instr} (hi : i.WellFormed) :
    instrOfFields (fieldsOf i).1 (fieldsOf i).2.1 (fieldsOf i).2.2 = i := by
  cases i with
  | haltIllegal p q =>
    have hpq : ¬ (p = 0 ∧ q = 0) := by
      rintro ⟨rfl, rfl⟩
      exact absurd hi (by decide)
    exact if_neg hpq
  | _ => rfl

/-- A well-formed instruction's value is a word's (R49, R53). -/
theorem encodeValue_lt {i : Instr} (hi : i.WellFormed) : encodeValue i < 2 ^ 10 := by
  have hrow : (Laws.RowRange.rowWords i).2 ≤ 1023 := by cases i <;> simp [Laws.RowRange.rowWords]
  have hval := (encodeValue_mem_row i hi).2
  omega

/-- A well-formed instruction's word has the instruction's value: nothing is cut off (R60). -/
theorem encode_toNat {i : Instr} (hi : i.WellFormed) : (encode i).toNat = encodeValue i :=
  Nat.mod_eq_of_lt (encodeValue_lt hi)

/-- Decoding an encoded well-formed instruction gives it back (R60). -/
theorem decode_encode {i : Instr} (hi : i.WellFormed) : decode (encode i) = i :=
  (decode_of_toNat (encode_toNat hi)).trans (instrOfFields_fieldsOf hi)

/-- Settles O1: the word keeps the value, the value its fields, and the fields the row. -/
theorem decodeInvertsEncode : Obligations.DecodeInvertsEncode := fun _ hi => decode_encode hi

/-- Settles O2: a well-formed instruction is the one its word decodes to, and the decoded instruction is well-formed and
encodes back. -/
theorem everyWordIsOneInstruction : Obligations.EveryWordIsOneInstruction := by
  intro w i
  constructor
  · rintro ⟨hi, rfl⟩
    exact (decode_encode hi).symm
  · rintro rfl
    exact ⟨decode_wellFormed w, encode_decode w⟩

/-! ## The rows of the opcode map -/

/-- Words 101 to 199 are the illegal halts: their two digits are not both 0 (R54). -/
theorem decode_illegal {w : Word} (hlo : 101 ≤ w.toNat) (hhi : w.toNat ≤ 199) :
    decode w = .haltIllegal (dig w.toNat 1) (dig w.toNat 0) := by
  have hne : ¬ (dig w.toNat 1 = 0 ∧ dig w.toNat 0 = 0) := by
    simp only [Fin.ext_iff, dig_val, Fin.val_zero]
    omega
  rw [decode_of_hundreds (op := 1) (by omega)]
  exact if_neg hne

/-- Words from 1000 on are undispatched (R55). -/
theorem decode_undispatched {w : Word} (h : 1000 ≤ w.toNat) :
    decode w = .undispatched (dig w.toNat 1) (dig w.toNat 0) := by
  have := w.isLt
  exact decode_of_hundreds (op := 10) (by omega)

/-- Settles O5: the hundreds select the row, but for the two rows of opcode 1. -/
theorem opcodeMapRows : Obligations.OpcodeMapRows := by
  intro w
  exact ⟨fun _ => decode_of_hundreds (op := 0) (by omega),
    fun h => (decode_eq_halt_iff w).2 (BitVec.eq_of_toNat_eq h),
    decode_illegal,
    fun _ _ => decode_of_hundreds (op := 2) (by omega),
    fun _ _ => decode_of_hundreds (op := 3) (by omega),
    fun _ _ => decode_of_hundreds (op := 4) (by omega),
    fun _ _ => decode_of_hundreds (op := 5) (by omega),
    fun _ _ => decode_of_hundreds (op := 6) (by omega),
    fun _ _ => decode_of_hundreds (op := 7) (by omega),
    fun _ _ => decode_of_hundreds (op := 8) (by omega),
    fun _ _ => decode_of_hundreds (op := 9) (by omega),
    decode_undispatched⟩

/-- Settles O6: fourteen closed facts, each by evaluating the decoder. -/
theorem sampleWordsDecode : Obligations.SampleWordsDecode := by
  unfold Obligations.SampleWordsDecode
  decide

/-- The decoder reads an instruction from a table word exactly where the kept bits are a word that decodes to it (R47). -/
theorem decodeTableWord_eq_some_iff {nbits w : Nat} {i : Instr} :
    decodeTableWord nbits w = some i ↔
      w % 2 ^ nbits ≤ Config.wordMax ∧ decode (BitVec.ofNat 10 (w % 2 ^ nbits)) = i := by
  simp only [decodeTableWord, decodeValue]
  by_cases h : w % 2 ^ nbits ≤ Config.wordMax
  · simp [h]
  · simp [h]

end Sys2Proof

namespace Sys2Proof.Machine

/-! ## Placed words -/

/-- A word placed at an address is the one fetched next (log entry 8). -/
theorem placeNext_fetches {s : State} {v : Nat} (hv : v ≤ Config.wordMax) (hpc : s.pc.toNat < Config.memCap) :
    (s.placeNext v).Fetches (BitVec.ofNat 10 v) := by
  rw [State.placeNext, if_pos ⟨hv, hpc⟩]
  exact ⟨rfl, rfl, hpc, place_cell _ _ _⟩

/-- Settles O17: the placed word is fetched, and it is the one the table's decoder read. -/
theorem placedWordRunsNext : Obligations.PlacedWordRunsNext := by
  intro s nbits w i hdec hpc
  obtain ⟨hv, rfl⟩ := decodeTableWord_eq_some_iff.1 hdec
  exact step_of_fetches (placeNext_fetches hv hpc)

/-! ## Illegal and undispatched words -/

/-- The fetch address that a raise records after a fetch is the pc's before it (R91). -/
theorem fetchAddr_fetchAdvance_eq (s : State) : s.fetchAdvance.fetchAddr = s.pc.setWidth 10 := by
  rw [State.fetchAddr, State.fetchAdvance_pc, BitVec.add_sub_cancel]

/-- A step that fetches a faulting word makes the fetch's changes and the raise's, and no other (R91, R93). -/
theorem step_of_raisedBy {s : State} {w : Word} {k : FaultKind} (hw : s.Fetches w) (hk : raisedBy w s = some k) :
    step s = .next (s.afterFault k w) := by
  rw [raisedBy_eq_faultOf] at hk
  rw [step_of_fetches hw, exec_of_faultOf_some (s := s.fetchAdvance) (decode_wellFormed w) hk, State.raise,
    encode_decode, fetchAddr_fetchAdvance_eq]
  rfl

/-- InvalidInstruction is the fault of the words 101 to 199 and of no other (R54, R89). -/
theorem raisedBy_eq_invalidInstruction_iff {s : State} {w : Word} :
    raisedBy w s = some .invalidInstruction ↔ 101 ≤ w.toNat ∧ w.toNat ≤ 199 := by
  by_cases h : 101 ≤ w.toNat ∧ w.toNat ≤ 199
  · simp [raisedBy, h]
  · rw [raisedBy, if_neg h]
    split_ifs <;> simp [h]

/-- Settles O23: in the range the step raises the word's fault; outside it a fault is of the other kind, and without a
fault there is no record. -/
theorem illegalWordsFault : Obligations.IllegalWordsFault := by
  intro s w hw
  refine ⟨fun hlo hhi => step_of_raisedBy hw (raisedBy_eq_invalidInstruction_iff.2 ⟨hlo, hhi⟩), ?_⟩
  intro hout hnone t r h hr hkind
  rcases step_of_fetches_cases hw h with ⟨k, hk, rfl⟩ | ⟨-, -, rfl⟩ | ⟨-, -, -, -, -, hf⟩
  · cases hr
    cases hkind
    rw [← raisedBy_eq_faultOf, raisedBy_eq_invalidInstruction_iff] at hk
    omega
  · cases hnone.symm.trans hr
  · cases hnone.symm.trans (hf.symm.trans hr)

/-- Settles O24: the row of the words from 1000 on, whose instruction does nothing beyond the fetch. -/
theorem undispatchedWordsDoNothing : Obligations.UndispatchedWordsDoNothing := by
  refine ⟨fun w => ⟨fun h => ⟨_, _, decode_undispatched h⟩, ?_⟩, fun p q s => rfl, fun s w hw h => ?_⟩
  · rintro ⟨p, q, hd⟩
    have hrow := (decode_row w).1
    rw [hd] at hrow
    exact hrow
  · rw [step_of_fetches hw, decode_undispatched h]
    rfl

/-- Settles O57: an instruction's execution is the application of its effect, a next state. -/
theorem everyInstructionCompletes : Obligations.EveryInstructionCompletes := fun i s => ⟨_, exec_eq_apply i s⟩

/-! ## The pseudo-instructions -/

/-- Writing a register changes no other part of the state (R16). -/
theorem sameButReg_setReg (s : State) (d : RegIndex) (v : Word) : s.SameButReg d (s.setReg d v) :=
  ⟨fun _ hr => State.reg_setReg_of_ne s v hr, rfl, sameMem_of_mem_eq rfl, rfl, rfl, rfl, rfl⟩

/-- Settles O33: NOP writes r0 with itself, ADDI r0, 0 reduces 1005 modulo 1000, and CLR writes the literal 0. -/
theorem pseudoInstructions : Obligations.PseudoInstructions := by
  refine ⟨⟨by decide, fun s => ?_⟩, ⟨by decide, fun s hs => ⟨_, rfl, ?_⟩⟩, fun d => ⟨?_, fun s => ?_⟩⟩
  · exact congrArg _ (s.setReg_reg 0)
  · rw [State.reg_setReg_same, addmod_toNat, literal_toNat, State.portA, hs]
    rfl
  · have hd := d.isLt
    refine decode_of_toNat (op := 2) (q := 0) ?_
    simp only [BitVec.toNat_ofNat, joinFields, Fin.val_zero]
    omega
  · exact ⟨_, rfl, State.reg_setReg_same s d _, sameButReg_setReg s d _⟩

end Sys2Proof.Machine

/-!
PROOFS, the engine: a step by phase, the edges of the phase, the count and the fetches, runs to their end, and the
reads of an instruction before its write.
-/

namespace Sys2Proof.Machine

/-! ## A step by phase -/

section
variable {s t : State} {w : Word}

/-- The terminal phases are those other than Ready and Running (R22). -/
theorem terminal_iff {p : Phase} : p.terminal = true ↔ p ≠ .ready ∧ p ≠ .running := by
  cases p <;> simp [Phase.terminal]

/-- A state in a terminal phase fetches nothing (R68). -/
theorem not_fetches_of_terminal (h : s.phase.terminal = true) : ¬ s.Fetches w := by
  rintro ⟨hp, -⟩
  exact (terminal_iff.1 h).2 hp

/-- A step in Ready begins the run (R62). -/
theorem step_of_ready (hp : s.phase = .ready) : step s = .next s.beginRun := by
  simp only [step, stepHead, hp]

/-- A step in a terminal phase changes nothing (R68). -/
theorem step_of_terminal (h : s.phase.terminal = true) : step s = .next s := by
  cases hp : s.phase with
  | ready | running =>
    rw [hp] at h
    cases h
  | halted | faulted | exhausted => simp only [step, stepHead, hp]

/-- A step in Running with halted true changes nothing (R63). -/
theorem step_of_halted (hp : s.phase = .running) (hh : s.halted = true) : step s = .next s := by
  simp only [step, stepHead, hp, hh, if_true]

/-- A step in Running that finds the pc at or past memLen exhausts the run (R63). -/
theorem step_of_memLen_le (hp : s.phase = .running) (hh : s.halted = false) (hl : s.memLen ≤ s.pc.toNat) :
    step s = .next s.exhaust := by
  have hc : s.mem.cell s.pc.toNat = none := (cell_eq_none_iff _ _).2 hl
  simp [step, stepHead, fetch, hp, hh, hc]

/-- A run that has not halted fetches the word at its pc, where that is an address of an allocated cell (R63, R64). -/
theorem exists_fetches (hm : s.mem.wf = true) (hp : s.phase = .running) (hh : s.halted = false)
    (hl : s.pc.toNat < s.memLen) : ∃ w, s.Fetches w := by
  obtain ⟨w, hc⟩ := (cell_isSome_iff s.mem s.pc.toNat).2 hl
  exact ⟨w, hp, hh, hl.trans_le ((Memory.wf_iff _).1 hm), hc⟩

/-! ## The edges of the phase -/

/-- A terminal phase has the edge that stays in it. -/
theorem stepEdge_self_of_terminal {p : Phase} (h : p.terminal = true) : p.stepEdge p = true := by
  cases p with
  | ready | running => cases h
  | halted | faulted | exhausted => rfl

/-- No edge of a step leads to Ready: only reset() does (R72). -/
theorem ne_ready_of_stepEdge {p q : Phase} (h : p.stepEdge q = true) : q ≠ .ready := by
  rintro rfl
  cases p <;> cases h

/-- Every step moves the phase along an edge (R72). -/
theorem step_stepEdge (h : step s = .next t) : s.phase.stepEdge t.phase = true := by
  rcases step_next_cases h with ⟨hp, rfl⟩ | ⟨hp, -, rfl⟩ | ⟨hp, -, -, rfl⟩ | ⟨w, hw, -⟩ | ⟨hp, rfl⟩
  · rw [hp]; rfl
  · rw [hp]; rfl
  · rw [hp]; rfl
  · have ⟨hp, _⟩ := hw
    rcases step_of_fetches_cases hw h with ⟨k, -, rfl⟩ | ⟨-, -, rfl⟩ | ⟨-, -, -, htp, -⟩
    · rw [hp]; rfl
    · rw [hp]; rfl
    · rw [htp, State.fetchAdvance_phase, hp]; rfl
  · exact stepEdge_self_of_terminal hp

/-! ## The count and the fetches -/

/-- A step that fetches adds one to the count (R66). -/
theorem step_count_of_fetches (hw : s.Fetches w) (h : step s = .next t) : t.count = s.count + 1 := by
  rw [step_of_fetches hw] at h
  exact exec_count h

/-- A step of Running without a fetch leaves the count (R66). -/
theorem step_count_of_not_fetches (hp : s.phase = .running) (hn : ∀ w, ¬ s.Fetches w) (h : step s = .next t) :
    t.count = s.count := by
  rcases step_next_cases h with ⟨hp', -⟩ | ⟨-, -, rfl⟩ | ⟨-, -, -, rfl⟩ | ⟨w, hw, -⟩ | ⟨-, rfl⟩
  · cases hp.symm.trans hp'
  · rfl
  · rfl
  · exact absurd hw (hn w)
  · rfl

/-- A step that fetches is one fetch more than those that follow it. -/
theorem fetchesIn_succ_of_fetches (k : Nat) (hw : s.Fetches w) (h : step s = .next t) :
    fetchesIn (k + 1) s = 1 + fetchesIn k t := by
  simp only [fetchesIn, stepHead_of_fetches hw, h]

/-- A step without a fetch leaves the fetches to those that follow it. -/
theorem fetchesIn_succ_of_not_fetches (k : Nat) (hn : ∀ w, ¬ s.Fetches w) (h : step s = .next t) :
    fetchesIn (k + 1) s = fetchesIn k t := by
  rcases stepHead_cases s with ⟨-, he⟩ | ⟨-, -, he⟩ | ⟨-, -, -, he⟩ | ⟨w, hw, -⟩ | ⟨-, -, -, -, he⟩ | ⟨-, he⟩
  case inr.inr.inr.inl => exact absurd hw (hn w)
  all_goals simp only [fetchesIn, he, h, Nat.zero_add]

/-- No step from a terminal phase fetches (R68). -/
theorem fetchesIn_of_terminal (k : Nat) (h : s.phase.terminal = true) : fetchesIn k s = 0 := by
  induction k with
  | zero => rfl
  | succ k ih =>
    rw [fetchesIn_succ_of_not_fetches k (fun _ => not_fetches_of_terminal h) (step_of_terminal h), ih]

/-- A step of Running moves a fetch from those to come into the count: their sum stays (R66). -/
theorem count_add_fetchesIn_step (k : Nat) (hp : s.phase = .running) (h : step s = .next t) :
    t.count + fetchesIn k t = s.count + fetchesIn (k + 1) s := by
  by_cases hw : ∃ w, s.Fetches w
  · obtain ⟨w, hw⟩ := hw
    rw [step_count_of_fetches hw h, fetchesIn_succ_of_fetches k hw h, Nat.add_assoc]
  · have hn : ∀ w, ¬ s.Fetches w := not_exists.1 hw
    rw [step_count_of_not_fetches hp hn h, fetchesIn_succ_of_not_fetches k hn h]

/-! ## Runs -/

/-- Outside Running no step is taken, whatever the steps allowed. -/
theorem runSteps_of_ne_running (fuel : Nat) (hp : s.phase ≠ .running) : runSteps fuel s = .returned s.count s := by
  cases fuel with
  | zero => exact if_neg hp
  | succ k => exact if_neg hp

/-- In Running the first step allowed is taken (R62). -/
theorem runSteps_succ_of_step (k : Nat) (hp : s.phase = .running) (h : step s = .next t) :
    runSteps (k + 1) s = runSteps k t := by
  simp only [runSteps, hp, if_true, h]

/-- run() in a terminal phase returns 0 (R73). -/
theorem run_of_terminal (fuel : Nat) (h : s.phase.terminal = true) : run fuel s = .returned 0 s := by
  cases hp : s.phase with
  | ready | running =>
    rw [hp] at h
    cases h
  | halted | faulted | exhausted => simp only [run, hp]

/-- run() in Ready begins the run and takes its steps (R62). -/
theorem run_of_ready (fuel : Nat) (hp : s.phase = .ready) : run fuel s = runSteps fuel s.beginRun := by
  simp only [run, hp]

/-- The start of run() in a terminal phase changes nothing (R73). -/
theorem hostRun_of_terminal (h : s.phase.terminal = true) : hostRun s = .next s := by
  obtain ⟨hr, hn⟩ := terminal_iff.1 h
  rcases hostRun_cases s with ⟨hp, -⟩ | ⟨hp, -⟩ | ⟨-, he⟩
  · exact absurd hp hr
  · exact absurd hp hn
  · exact he

/-- The start of run() in Ready begins the run (R62). -/
theorem hostRun_of_ready (hp : s.phase = .ready) : hostRun s = .next s.beginRun := by
  simp only [hostRun, hp]

/-- The induction over steps that return: what holds of the state they return in, outside Running and with its count as
the result, and passes from each step of Running back to the state before it, holds of the state they start in. -/
theorem runSteps_induction {motive : Nat → State → Prop} {c fuel : Nat} (h : runSteps fuel s = .returned c t)
    (stop : ∀ k, t.phase ≠ .running → c = t.count → motive k t)
    (pass : ∀ k u v, u.phase = .running → step u = .next v → motive k v → motive (k + 1) u) : motive fuel s := by
  induction fuel generalizing s with
  | zero =>
    by_cases hp : s.phase = .running
    · simp [runSteps, hp] at h
    · cases (runSteps_of_ne_running 0 hp).symm.trans h
      exact stop 0 hp rfl
  | succ k ih =>
    by_cases hp : s.phase = .running
    · cases hu : step s with
      | next u => exact pass k s u hp hu (ih (runSteps_succ_of_step k hp hu ▸ h))
      | fault r => simp [runSteps, hp, hu] at h
      | refused r => simp [runSteps, hp, hu] at h
    · cases (runSteps_of_ne_running (k + 1) hp).symm.trans h
      exact stop (k + 1) hp rfl

/-- Steps that return from a state past Ready end in a terminal phase, and the result is the count of the state they
leave: the count at their start and the fetches made (R69). -/
theorem runSteps_returned {fuel c : Nat} (hr : s.phase ≠ .ready) (h : runSteps fuel s = .returned c t) :
    t.phase.terminal = true ∧ c = t.count ∧ t.count = s.count + fetchesIn fuel s := by
  refine runSteps_induction (motive := fun n u => u.phase ≠ .ready →
    t.phase.terminal = true ∧ c = t.count ∧ t.count = u.count + fetchesIn n u) h
    (fun k hn hc hr => ?_) (fun k u v hp hu ih _ => ?_) hr
  · have ht := terminal_iff.2 ⟨hr, hn⟩
    exact ⟨ht, hc, by rw [fetchesIn_of_terminal k ht, Nat.add_zero]⟩
  · rw [← count_add_fetchesIn_step k hp hu]
    exact ih (ne_ready_of_stepEdge (step_stepEdge hu))

/-- Steps that return give the same with more steps allowed (R74). -/
theorem runSteps_add {fuel c : Nat} (k : Nat) (h : runSteps fuel s = .returned c t) :
    runSteps (fuel + k) s = .returned c t := by
  refine runSteps_induction (motive := fun n u => runSteps (n + k) u = .returned c t) h (fun n hn hc => ?_)
    (fun n u v hp hu ih => ?_)
  · rw [runSteps_of_ne_running _ hn, hc]
  · rw [Nat.add_right_comm, runSteps_succ_of_step _ hp hu, ih]

end

/-! ## The obligations on the engine -/

/-- Settles O7: the state after the fetch is `fetchAdvance`, and an address plus one is no wrap. -/
theorem stepRunsDecodedInstruction : Obligations.StepRunsDecodedInstruction := by
  intro s w hw
  have ⟨_, _, hlt, _⟩ := hw
  exact ⟨step_of_fetches hw, pc_succ_toNat hlt⟩

/-- Settles O8: one lemma for each case of the loop test. -/
theorem engineStepCases : Obligations.EngineStepCases := by
  intro s hm hp
  refine ⟨step_of_halted hp, step_of_memLen_le hp, fun hh hl => ?_⟩
  obtain ⟨w, hw⟩ := exists_fetches hm hp hh hl
  have ⟨_, _, _, hc⟩ := hw
  exact ⟨w, hc, step_of_fetches hw⟩

/-- Settles O9: the three phases are the terminal ones. -/
theorem terminalPhasesAreFixed : Obligations.TerminalPhasesAreFixed := by
  intro s fuel hp
  have ht : s.phase.terminal = true := by
    rcases hp with hp | hp | hp <;> rw [hp] <;> rfl
  exact ⟨run_of_terminal fuel ht, hostRun_of_terminal ht, step_of_terminal ht⟩

/-- Settles O10: both are the begun run. -/
theorem readyStepStartsRun : Obligations.ReadyStepStartsRun := by
  intro s hp
  exact ⟨step_of_ready hp, (step_of_ready hp).trans (hostRun_of_ready hp).symm⟩

/-- Settles O11: the steps by `step_stepEdge`, each call of the host by its cases. -/
theorem phaseMovesAlongEdges : Obligations.PhaseMovesAlongEdges := by
  refine ⟨fun s t => step_stepEdge, fun s t h => ?_, fun v s t h => ?_, fun s t h => ?_⟩
  · rcases hostReset_cases s with ⟨-, he⟩ | ⟨-, he⟩ <;> cases he.symm.trans h
    rfl
  · rcases hostAppend_cases v s with ⟨hp, -, -, -, he⟩ | ⟨-, r, he⟩ <;> cases he.symm.trans h
    exact ⟨hp, hp⟩
  · rcases hostRun_cases s with ⟨hp, he⟩ | ⟨-, he⟩ | ⟨ht, he⟩ <;> cases he.symm.trans h
    · exact .inl ⟨hp, rfl⟩
    · exact .inr ⟨ht, rfl⟩

/-- Settles O12: the invariant gives halted false and no fault, so the step exhausts the run or fetches, and a fetched
instruction faults, halts or leaves the phase; each way out is a terminal phase. -/
theorem runningIsLeftThreeWays : Obligations.RunningIsLeftThreeWays := by
  intro s t hs hp h hleft
  have ht : t.phase.terminal = true := terminal_iff.2 ⟨ne_ready_of_stepEdge (step_stepEdge h), hleft⟩
  refine ⟨?_, step_of_terminal ht⟩
  obtain ⟨-, -, hst⟩ := (inv_iff s).1 hs
  rw [hp] at hst
  obtain ⟨hh, hf⟩ := hst
  rcases step_next_cases h with ⟨hp', -⟩ | ⟨-, hh', -⟩ | ⟨-, -, hl, rfl⟩ | ⟨w, hw, -⟩ | ⟨hp', -⟩
  · cases hp.symm.trans hp'
  · cases hh.symm.trans hh'
  · exact .inr (.inr ⟨rfl, hh, hl⟩)
  · rcases step_of_fetches_cases hw h with ⟨k, hk, rfl⟩ | ⟨-, hd, rfl⟩ | ⟨-, -, -, htp, -⟩
    · exact .inr (.inl ⟨rfl, ⟨w, k, hw, (raisedBy_eq_faultOf w s).trans hk⟩, rfl, nofun⟩)
    · exact .inl ⟨rfl, (decode_eq_halt_iff w).1 hd ▸ hw, rfl, hf⟩
    · exact absurd (htp.trans hp) hleft
  · exact absurd hp (terminal_iff.1 hp').2

/-- Settles O13: the run begins with the count 0, to which its steps add their fetches; an empty memory exhausts it in
its first step. -/
theorem runReturnsFetchCount : Obligations.RunReturnsFetchCount := by
  constructor
  · intro fuel c s t hp h
    rw [run_of_ready fuel hp] at h
    obtain ⟨ht, hc, hcount⟩ := runSteps_returned (s := s.beginRun) nofun h
    rw [State.beginRun_count, Nat.zero_add] at hcount
    obtain ⟨hready, hrunning⟩ := terminal_iff.1 ht
    exact ⟨hrunning, hready, hc, hc.trans hcount⟩
  · intro fuel s hp hh hl
    have hempty : s.beginRun.memLen ≤ s.beginRun.pc.toNat := hl ▸ Nat.zero_le _
    have hstep : step s.beginRun = .next s.beginRun.exhaust := step_of_memLen_le rfl hh hempty
    rw [run_of_ready _ hp, runSteps_succ_of_step fuel rfl hstep]
    exact runSteps_of_ne_running (s := s.beginRun.exhaust) fuel nofun

/-- Settles O14: from Ready by `runSteps_add`; in a terminal phase the steps allowed do not matter. -/
theorem runResultIsStable : Obligations.RunResultIsStable := by
  intro fuel k c s t h
  by_cases hr : s.phase = .ready
  · rw [run_of_ready _ hr] at h ⊢
    exact runSteps_add k h
  · have hn : s.phase ≠ .running := by
      intro hp
      simp [run, hp] at h
    have ht := terminal_iff.2 ⟨hr, hn⟩
    rw [run_of_terminal _ ht] at h ⊢
    exact h

/-- Settles O15: with a fetch and without one. -/
theorem countCountsFetches : Obligations.CountCountsFetches :=
  ⟨fun _ _ _ => step_count_of_fetches, fun _ _ => step_count_of_not_fetches⟩

/-! ## Reads before the write -/

/-- A load from an allocated cell writes its word (R85). -/
theorem exec_ld_of_cell {d src : RegIndex} {s : State} {v : Word} (h : s.mem.cell (s.reg src).toNat = some v) :
    exec (.ld d src) s = .next (s.setReg d v) := by
  rcases execLd_cases d src s with ⟨u, hu, he⟩ | ⟨hl, -⟩
  · cases hu.symm.trans h
    exact he
  · exact absurd (lt_of_cell h) (Nat.not_lt.2 hl)

/-- Settles O32: each instruction writes what it computes from the state before it. -/
theorem readsComeBeforeTheWrite : Obligations.ReadsComeBeforeTheWrite := by
  intro d s
  refine ⟨⟨_, rfl, ?_⟩, ⟨_, rfl, ?_⟩, fun v hv => ⟨_, exec_ld_of_cell hv, State.reg_setReg_same s d v⟩, fun hl => ?_, ?_⟩
  · rw [State.reg_setReg_same, addmod_toNat, State.portA, State.portB, Nat.two_mul]
  · rw [State.reg_setReg_same, mulmod_toNat, State.portA, State.portB, Nat.pow_two]
  · obtain ⟨m, he, hm⟩ := exec_st_of_le (d := d) hl
    exact ⟨_, he, hm⟩
  · rcases execJnz_cases d d s with ⟨hz, he⟩ | ⟨hz, he⟩
    · exact ⟨_, he, (if_neg hz).symm⟩
    · exact ⟨_, he, (if_pos hz).symm⟩

end Sys2Proof.Machine

/-!
PROOFS, opcode 1: HALT, the illegal halts, and what else can reach phase Halted.
-/

namespace Sys2Proof.Machine

/-- An illegal halt with a nonzero operand is an instruction of the core (R54). -/
theorem haltIllegal_wellFormed {p q : Digit} (hpq : p ≠ 0 ∨ q ≠ 0) : (Instr.haltIllegal p q).WellFormed := by
  simpa [Instr.WellFormed, Instr.wellFormed] using hpq

/-- An instruction of the core other than HALT reaches phase Halted from no other phase: it raises, and the phase is
Faulted, or it leaves the phase as it was (R76). -/
theorem exec_phase_ne_halted {i : Instr} {s t : State} (hi : i.WellFormed) (hne : i ≠ .halt) (h : exec i s = .next t)
    (hs : s.phase ≠ .halted) : t.phase ≠ .halted := by
  cases hf : faultOf i s with
  | some k =>
    rw [exec_of_faultOf_some hi hf] at h
    cases h
    exact nofun
  | none =>
    obtain ⟨-, hphase, -⟩ := exec_status h hf hne
    rwa [hphase]

/-- Settles O22: HALT by definition, an illegal halt by the fault of its row with the word it encodes to, and any other
instruction by `exec_phase_ne_halted`. -/
theorem opcodeOneHaltsOrFaults : Obligations.OpcodeOneHaltsOrFaults := by
  refine ⟨(decode_eq_halt_iff _).2 rfl, fun s => rfl, fun p q hpq => ?_, fun _ _ _ => exec_phase_ne_halted⟩
  have hi := haltIllegal_wellFormed hpq
  have hword : encode (.haltIllegal p q) = BitVec.ofNat 10 (100 + 10 * p.val + q.val) := rfl
  rw [← hword]
  refine ⟨decode_encode hi, fun s a hpc => ?_⟩
  rw [exec_of_faultOf_some hi rfl, State.raise, fetchAddr_of_pc hpc]

end Sys2Proof.Machine

/-!
PROOFS, the register and ALU instructions: the modular ALU, the one register each of them writes, and that words of at
most 999 stay so.
-/

namespace Sys2Proof.Machine

/-! ## The modular ALU -/

/-- A sum modulo 1000 is at most 999 (R83). -/
theorem addmod_le (a b : Word) : (addmod a b).toNat ≤ 999 := by
  rw [addmod_toNat]
  omega

/-- A product modulo 1000 is at most 999 (R83). -/
theorem mulmod_le (a b : Word) : (mulmod a b).toNat ≤ 999 := by
  rw [mulmod_toNat]
  omega

theorem addmod_comm (a b : Word) : addmod a b = addmod b a := by
  rw [addmod, addmod, Nat.add_comm]

theorem mulmod_comm (a b : Word) : mulmod a b = mulmod b a := by
  rw [mulmod, mulmod, Nat.mul_comm]

/-- Adding 1000 - k subtracts k from a value at most 999, since 1000 - k is a word and the sum passes 1000 once
(R83). -/
theorem addmod_sub {a : Word} {k : Nat} (ha : a.toNat ≤ 999) (hk : k ≤ a.toNat) :
    (addmod a (BitVec.ofNat 10 (1000 - k))).toNat = a.toNat - k := by
  rw [addmod_toNat, BitVec.toNat_ofNat]
  omega

/-- Settles O31: the laws of the ALU's two operations, and subtraction by `addmod_sub`. -/
theorem aluIsExactModulo1000 : Obligations.AluIsExactModulo1000 := by
  refine ⟨fun a b => ?_, fun a => ⟨rfl, addmod_toNat a 0#10⟩, fun _ _ => addmod_sub⟩
  exact ⟨addmod_toNat a b, mulmod_toNat a b, addmod_le a b, mulmod_le a b, addmod_comm a b, mulmod_comm a b⟩

/-! ## Words of at most 999 -/

section
variable {i : Instr} {s t : State}

/-- From words of at most 999 an instruction writes a register with such a word: a digit, an ALU result, or a word that
a register or a cell held (R84). -/
theorem effectOf_setReg_le {d : RegIndex} {v : Word} (hs : s.LowWords) (h : effectOf i s = .setReg d v) :
    v.toNat ≤ 999 := by
  obtain ⟨hreg, hcell⟩ := hs
  cases i with
  | halt | undispatched => cases h
  | haltIllegal p q =>
    simp only [effectOf] at h
    split at h <;> cases h
  | seti d n =>
    cases h
    rw [literal_toNat]
    omega
  | addi | add =>
    cases h
    exact addmod_le _ _
  | muli | mul =>
    cases h
    exact mulmod_le _ _
  | mov d src =>
    cases h
    exact hreg src
  | ld d src =>
    simp only [effectOf] at h
    cases hc : s.mem.cell (s.reg src).toNat <;> rw [hc] at h <;> cases h
    exact hcell _ _ hc
  | st d src =>
    simp only [effectOf] at h
    cases hm : memWrite true s.mem (s.reg src) (s.reg d) <;> rw [hm] at h <;> cases h
  | jnz d src =>
    simp only [effectOf] at h
    split at h <;> cases h

/-- Executing an instruction keeps every register at most 999: it writes one by `effectOf_setReg_le`, or none (R84). -/
theorem exec_reg_le (hs : s.LowWords) (h : exec i s = .next t) (r : RegIndex) : (t.reg r).toNat ≤ 999 := by
  cases (exec_eq_apply i s).symm.trans h
  cases he : effectOf i s with
  | setReg d v =>
    simp only [Effect.apply, State.reg_setReg]
    split
    · exact effectOf_setReg_le hs he
    · exact hs.1 r
  | _ => exact hs.1 r

/-- Executing an instruction keeps every memory word at most 999: a store writes a register's word (R84, R86). -/
theorem exec_cell_le (hs : s.LowWords) (h : exec i s = .next t) {a : Nat} {w : Word} (hw : t.mem.cell a = some w) :
    w.toNat ≤ 999 := by
  obtain ⟨hreg, hcell⟩ := hs
  rcases exec_mem h with he | ⟨d, src, -, hm⟩
  · exact hcell a w (he ▸ hw)
  · rw [memWrite_cell hm] at hw
    split at hw
    · cases hw
      exact hreg d
    · exact hcell a w hw

/-- Settles O35: by the cases of a step, of which only a fetched instruction writes a register or a cell. -/
theorem lowWordsAreKept : Obligations.LowWordsAreKept := by
  intro s t hs h
  rcases step_next_cases h with ⟨-, rfl⟩ | ⟨-, -, rfl⟩ | ⟨-, -, -, rfl⟩ | ⟨w, -, he⟩ | ⟨-, rfl⟩
  · exact hs
  · exact hs
  · exact hs
  · exact ⟨exec_reg_le (s := s.fetchAdvance) hs he, fun _ _ => exec_cell_le (s := s.fetchAdvance) hs he⟩
  · exact hs

/-! ## The written register -/

/-- An instruction that writes v to the register d leaves v there (R16). -/
theorem reg_of_exec_setReg {d : RegIndex} {v : Word} (he : exec i s = .next (s.setReg d v)) (h : exec i s = .next t) :
    t.reg d = v := by
  cases he.symm.trans h
  exact State.reg_setReg_same s d v

/-- Where an instruction writes v to the register d, it answers a next state that holds v there and is otherwise the
same (R16). -/
theorem exists_of_exec_setReg {d : RegIndex} {v : Word} (he : exec i s = .next (s.setReg d v)) :
    ∃ t, exec i s = .next t ∧ t.reg d = v ∧ s.SameButReg d t :=
  ⟨_, he, State.reg_setReg_same s d v, sameButReg_setReg s d v⟩

end

/-- Settles O34: the written word is a literal, an ALU result, or the source word. -/
theorem writtenRegisterRanges : Obligations.WrittenRegisterRanges := by
  intro i s t h
  refine ⟨?_, ?_, ?_, ?_, ?_⟩
  · rintro d n rfl
    rw [reg_of_exec_setReg (d := d) rfl h, literal_toNat]
    omega
  · rintro d n (rfl | rfl)
    · exact reg_of_exec_setReg (d := d) rfl h ▸ addmod_le _ _
    · exact reg_of_exec_setReg (d := d) rfl h ▸ mulmod_le _ _
  · rintro d src (rfl | rfl)
    · exact reg_of_exec_setReg (d := d) rfl h ▸ addmod_le _ _
    · exact reg_of_exec_setReg (d := d) rfl h ▸ mulmod_le _ _
  · rintro d src rfl
    exact reg_of_exec_setReg rfl h
  · rintro d src v rfl hv
    exact reg_of_exec_setReg (exec_ld_of_cell hv) h

/-! ## Each instruction's word and its write

The word is the instruction's own encoding, so `decode_encode` decodes it. -/

/-- Settles O25: the written word is the literal. -/
theorem setiWritesLiteral : Obligations.SetiWritesLiteral := by
  intro d n s
  obtain ⟨t, he, hd, hsame⟩ := exists_of_exec_setReg (i := .seti d n) (s := s) rfl
  exact ⟨decode_encode (i := .seti d n) rfl, t, he, by rw [hd, literal_toNat], hsame⟩

/-- Settles O26: the written word is the sum with the literal. -/
theorem addiAddsModulo : Obligations.AddiAddsModulo := by
  intro d n s
  obtain ⟨t, he, hd, hsame⟩ := exists_of_exec_setReg (i := .addi d n) (s := s) rfl
  exact ⟨decode_encode (i := .addi d n) rfl, t, he, by rw [hd, addmod_toNat, literal_toNat, State.portA], hsame⟩

/-- Settles O27: the written word is the product with the literal. -/
theorem muliMultipliesModulo : Obligations.MuliMultipliesModulo := by
  intro d n s
  obtain ⟨t, he, hd, hsame⟩ := exists_of_exec_setReg (i := .muli d n) (s := s) rfl
  exact ⟨decode_encode (i := .muli d n) rfl, t, he, by rw [hd, mulmod_toNat, literal_toNat, State.portA], hsame⟩

/-- Settles O28: the written word is the source register's, which with d = s is the one already there. -/
theorem movCopiesRaw : Obligations.MovCopiesRaw := by
  intro d src s
  exact ⟨decode_encode (i := .mov d src) rfl, exists_of_exec_setReg rfl, congrArg _ (s.setReg_reg d)⟩

/-- Settles O29: the written word is the sum of the two registers. -/
theorem addAddsModulo : Obligations.AddAddsModulo := by
  intro d src s
  obtain ⟨t, he, hd, hsame⟩ := exists_of_exec_setReg (i := .add d src) (s := s) rfl
  exact ⟨decode_encode (i := .add d src) rfl, t, he, by rw [hd, addmod_toNat, State.portA, State.portB], hsame⟩

/-- Settles O30: the written word is the product of the two registers. -/
theorem mulMultipliesModulo : Obligations.MulMultipliesModulo := by
  intro d src s
  obtain ⟨t, he, hd, hsame⟩ := exists_of_exec_setReg (i := .mul d src) (s := s) rfl
  exact ⟨decode_encode (i := .mul d src) rfl, t, he, by rw [hd, mulmod_toNat, State.portA, State.portB], hsame⟩

end Sys2Proof.Machine

/-!
PROOFS, load and store: what LD and ST do within the extent of the memory and past it, and the two readings of a store
to its end.
-/

namespace Sys2Proof.Machine

/-! ## The fault, at the fetch address -/

/-- A raise in an instruction fetched from the address a records a, and changes nothing but the status (R18, R91). -/
theorem raise_of_pc {s : State} {a : Word} (hpc : s.pc = zextPc a + 1#11) (k : FaultKind) (i : Instr) :
    s.raise k i =
      { s with fault := some { kind := k, instr := encode i, addr := a }, halted := true, phase := .faulted } := by
  rw [State.raise, fetchAddr_of_pc hpc]

/-- An instruction of the core fetched from the address a whose fault condition holds records its word and a, and
changes nothing but the status (R89, R91). -/
theorem exec_of_faultOf_some_of_pc {i : Instr} {s : State} {k : FaultKind} {a : Word} (hi : i.WellFormed)
    (hf : faultOf i s = some k) (hpc : s.pc = zextPc a + 1#11) :
    exec i s = .next
      { s with fault := some { kind := k, instr := encode i, addr := a }, halted := true, phase := .faulted } := by
  rw [exec_of_faultOf_some hi hf, raise_of_pc hpc]

/-! ## The two readings of a store -/

/-- The switch STORE_AT_END is read at the end of the memory alone (R34). -/
theorem memWrite_of_ne_length {m : Memory} {a : Word} (h : a.toNat ≠ m.length) (g g' : Bool) (v : Word) :
    memWrite g m a v = memWrite g' m a v := by
  simp [memWrite, h]

/-- At the end of the memory a write extends it by its word in the growing reading, and raises in the strict one (R34,
D4). -/
theorem memWrite_of_eq_length {m : Memory} {a : Word} (h : a.toNat = m.length) (g : Bool) (v : Word) :
    memWrite g m a v = if g then some (m ++ [v]) else none := by
  simp [memWrite, h]

/-- A store, in either reading, is MemWrite of x[d] at x[s], and raises where MemWrite does (R86). -/
theorem storeWith_eq_elim (g : Bool) (d src : RegIndex) (s : State) :
    storeWith g d src s = .next
      ((memWrite g s.mem (s.reg src) (s.reg d)).elim (s.raise .outOfBoundsAccess (.st d src)) s.setMem) := by
  simp only [storeWith, State.effAddr, State.portA, State.portB]
  cases memWrite g s.mem (s.reg src) (s.reg d) <;> rfl

/-! ## The obligations -/

/-- Settles O36: below memLen there is a cell, whose word is written; at or past it LD's fault condition holds. -/
theorem ldLoadsOrFaults : Obligations.LdLoadsOrFaults := by
  intro d src s
  refine ⟨decode_encode (i := .ld d src) rfl, fun hl => ?_, fun hl a hpc => ?_⟩
  · obtain ⟨v, hv⟩ := (cell_isSome_iff s.mem _).2 hl
    obtain ⟨t, he, hd, hsame⟩ := exists_of_exec_setReg (exec_ld_of_cell (d := d) hv)
    exact ⟨t, v, hv, he, hd, hsame⟩
  · exact exec_of_faultOf_some_of_pc (i := .ld d src) rfl (if_pos hl) hpc

/-- Settles O37: at or below memLen ST is one MemWrite, whose cells and length `memWrite_cell` and `memWrite_length`
give; past it ST's fault condition holds. -/
theorem stStoresOrFaults : Obligations.StStoresOrFaults := by
  intro d src s
  refine ⟨decode_encode (i := .st d src) rfl, fun hl => ?_, fun hl a hpc => ?_⟩
  · rcases execSt_cases d src s with ⟨m, -, hm, he⟩ | ⟨hgt, -⟩
    · have hcell := memWrite_cell hm
      have hlen := memWrite_length hm
      exact ⟨s.setMem m, he, (hcell _).trans (if_pos rfl), fun a ha => (hcell a).trans (if_neg ha),
        fun hlt => hlen.trans (if_neg (Nat.ne_of_lt hlt)), fun heq => hlen.trans (if_pos heq),
        fun _ => rfl, rfl, rfl, rfl, rfl, rfl⟩
    · exact absurd hl (Nat.not_le.2 hgt)
  · exact exec_of_faultOf_some_of_pc (i := .st d src) rfl (if_pos hl) hpc

/-- Settles O44: both readings are MemWrite's, which reads the switch at memLen alone. -/
theorem storeReadingsDifferOnlyAtEnd : Obligations.StoreReadingsDifferOnlyAtEnd := by
  intro d src s
  refine ⟨rfl, fun hne => ?_, fun heq => ⟨?_, fun a hpc => ?_⟩⟩
  · rw [storeWith_eq_elim, storeWith_eq_elim, memWrite_of_ne_length hne false true]
  · rw [storeWith_eq_elim, memWrite_of_eq_length heq]
    rfl
  · rw [storeWith_eq_elim, memWrite_of_eq_length heq]
    exact congrArg Host.Outcome.next (raise_of_pc hpc _ _)

end Sys2Proof.Machine

/-!
PROOFS, jump: what JNZ does when its condition register is nonzero and when it is 0.
-/

namespace Sys2Proof.Machine

/-- A JNZ whose condition register is 0 is a no-op (R87). -/
theorem exec_jnz_of_eq_zero {d src : RegIndex} {s : State} (hz : s.reg src = 0#10) :
    exec (.jnz d src) s = .next s := by
  rcases execJnz_cases d src s with ⟨hne, -⟩ | ⟨-, he⟩
  · exact absurd hz hne
  · exact he

/-- Widening a word to a pc keeps it nonzero. -/
theorem zextPc_ne_zero {w : Word} (hw : w ≠ 0#10) : zextPc w ≠ 0#11 := by
  intro h
  refine hw (BitVec.eq_of_toNat_eq ?_)
  rw [← zextPc_toNat, h]
  rfl

/-- JNZ's opcode digit is 0, so its word is the two operand digits (R53). -/
theorem encode_jnz (d src : RegIndex) : encode (.jnz d src) = BitVec.ofNat 10 (10 * d.val + src.val) := by
  simp only [encode, encodeValue, fieldsOf, joinFields, Nat.mul_zero, Nat.zero_add]

/-- Settles O38: the taken jump and the no-op; with d = s the target is the nonzero condition itself. -/
theorem jnzJumpsOnNonzero : Obligations.JnzJumpsOnNonzero := by
  intro d src s
  refine ⟨encode_jnz d src ▸ decode_encode (i := .jnz d src) rfl,
    fun hz => ⟨zextPc (s.reg d), zextPc_toNat _, exec_jnz_of_ne_zero hz⟩, exec_jnz_of_eq_zero, fun hz t h => ?_⟩
  cases (exec_jnz_of_ne_zero hz).symm.trans h
  exact zextPc_ne_zero hz

end Sys2Proof.Machine

/-!
PROOFS, exceptions: the state a fault leaves, when a step raises one, that faults are precise, and what the status says
of a terminal phase.
-/

namespace Sys2Proof.Machine

section
variable {s t : State} {w : Word}

/-! ## Steps that raise a fault and steps that do not -/

/-- The recorded fetch address is the pc's number before the fetch, since that pc is an address (R18, R91). -/
theorem recordedAddr_toNat_of_fetches (hw : s.Fetches w) : (s.pc.setWidth 10).toNat = s.pc.toNat := by
  obtain ⟨-, -, hlt, -⟩ := hw
  rw [← fetchAddr_fetchAdvance_eq, fetchAddr_fetchAdvance hlt]

/-- A step that fetches a word without a fault leaves the fault record and does not end Faulted (R89). -/
theorem step_of_raisedBy_none (hw : s.Fetches w) (hn : raisedBy w s = none) (h : step s = .next t) :
    t.fault = s.fault ∧ t.phase ≠ .faulted := by
  rw [raisedBy_eq_faultOf] at hn
  rcases step_of_fetches_cases hw h with ⟨k, hk, -⟩ | ⟨-, -, rfl⟩ | ⟨-, -, -, htp, -, htf⟩
  · cases hn.symm.trans hk
  · exact ⟨rfl, nofun⟩
  · obtain ⟨hp, -⟩ := hw
    refine ⟨htf, ?_⟩
    rw [htp, State.fetchAdvance_phase, hp]
    exact nofun

/-- A step of Running that ends Faulted has fetched a word and made the changes of its fault and no others (R91, R93). -/
theorem exists_afterFault_of_step_faulted (hp : s.phase = .running) (h : step s = .next t) (ht : t.phase = .faulted) :
    ∃ w k, s.Fetches w ∧ t = s.afterFault k w := by
  rcases step_next_cases h with ⟨-, rfl⟩ | ⟨-, -, rfl⟩ | ⟨-, -, -, rfl⟩ | ⟨w, hw, -⟩ | ⟨-, rfl⟩
  · cases ht
  · cases hp.symm.trans ht
  · cases ht
  · cases hk : raisedBy w s with
    | some k => exact ⟨w, k, hw, Host.Outcome.next.inj (h.symm.trans (step_of_raisedBy hw hk))⟩
    | none => exact absurd ht (step_of_raisedBy_none hw hk h).2
  · cases hp.symm.trans ht

end

/-! ## The obligations -/

/-- Settles O50: the step is `step_of_raisedBy`, and outside Running the run returns the count at once. -/
theorem faultIsTakenAsDescribed : Obligations.FaultIsTakenAsDescribed := by
  intro s w k hw hk
  have hstep := step_of_raisedBy hw hk
  obtain ⟨hp, -⟩ := hw
  refine ⟨s.afterFault k w, rfl, hstep, fun fuel => ?_⟩
  rw [runSteps_succ_of_step fuel hp hstep]
  exact runSteps_of_ne_running (s := s.afterFault k w) fuel nofun

/-- Settles O51: the fetched word raises a fault, and the step ends in its `afterFault`, or raises none, and the record
stays empty. -/
theorem faultConditionsAreExact : Obligations.FaultConditionsAreExact := by
  refine ⟨fun s t w k hw hnone h => ?_, fun s t w hw h => ?_, fun s => step_of_memLen_le, rfl, rfl, fun k => ?_⟩
  · cases hk : raisedBy w s with
    | some k' =>
      cases h.symm.trans (step_of_raisedBy hw hk)
      simp [recordedAddr_toNat_of_fetches hw]
    | none =>
      obtain ⟨hf, -⟩ := step_of_raisedBy_none hw hk h
      simp [hf, hnone]
  · cases hk : raisedBy w s with
    | some k =>
      cases h.symm.trans (step_of_raisedBy hw hk)
      simp
    | none =>
      obtain ⟨-, hp⟩ := step_of_raisedBy_none hw hk h
      simp [hp]
  · cases k
    · exact .inl rfl
    · exact .inr rfl

/-- Settles O52: the state left is `afterFault`, which keeps the registers and the memory. -/
theorem faultsArePrecise : Obligations.FaultsArePrecise := by
  intro s t _ hp h ht
  obtain ⟨w, k, hw, rfl⟩ := exists_afterFault_of_step_faulted hp h ht
  have ⟨_, _, hlt, hc⟩ := hw
  exact ⟨fun _ => rfl, sameMem_of_mem_eq rfl, pc_succ_toNat hlt, rfl, rfl, _, rfl, recordedAddr_toNat_of_fetches hw, hc⟩

/-- Settles O21: each terminal phase's clause of the invariant fixes halted and whether there is a record. -/
theorem terminalPhaseIsDerivable : Obligations.TerminalPhaseIsDerivable := by
  intro s hs ht
  obtain ⟨-, -, hst⟩ := (inv_iff s).1 hs
  rw [State.faultReport]
  cases hp : s.phase with
  | ready | running =>
    rw [hp] at ht
    cases ht
  | halted =>
    rw [hp] at hst
    obtain ⟨hh, hf, -⟩ := hst
    simp [hh, hf]
  | faulted =>
    rw [hp] at hst
    obtain ⟨-, -, hany⟩ := hst
    have hf : s.fault ≠ none := fun hn => by simp [hn] at hany
    simp [hf]
  | exhausted =>
    rw [hp] at hst
    obtain ⟨hh, hf, -⟩ := hst
    simp [hh, hf]

end Sys2Proof.Machine

/-!
PROOFS, reset() of the host: the reset state, its values by `resetValues`, in every phase but Running.
-/

namespace Sys2Proof.Machine

/-- Settles O19: by `hostReset_cases`, whose two cases exclude each other. The reset state is in phase Ready, so the call
is accepted there too, and answers that state again (R106). -/
theorem hostResetRestores : Obligations.HostResetRestores := by
  intro s
  have hagain : hostReset State.reset = .next State.reset := rfl
  rcases hostReset_cases s with ⟨hp, he⟩ | ⟨hp, he⟩
  · exact ⟨fun _ => ⟨State.reset, he, hagain, resetValues⟩, fun hrun => absurd hrun hp⟩
  · exact ⟨fun hne => absurd hp hne, fun _ t ht => nomatch he.symm.trans ht⟩

end Sys2Proof.Machine
